-- ==== Sys2Proof/Word.lean ====
section
/-! DEFINITION. The widths of the block: bytes of the payload buffer and 32-bit interface registers
(00_scope.md R8, R9). Bit 0 is the least significant bit. -/

namespace Sys2Proof

/-- A byte of PBUF (10_state.md R27). -/
abbrev Byte := BitVec 8

/-- A 32-bit interface register, host access or command word (00_scope.md R8). -/
abbrev Word := BitVec 32

end Sys2Proof
end

