-- ==== Sys2Proof/Syntax.lean ====
section
/-! DEFINITION. The command set: value types, the fault codes, and one constructor of `Instr` for each row of
the opcode table (30_encoding.md R50 to R59). -/

namespace Sys2Proof

/-- The value type of a command's input or output, field VT (30_encoding.md R52; the Readable Value variant
of 10_state.md R29). -/
inductive ValueType where
  | i32
  | f32
  | u8
  | u16
  | u32
deriving DecidableEq, Repr

/-- `width(VT)`: 32 for I32, F32 and U32, 16 for U16, 8 for U8 (30_encoding.md R52). -/
def ValueType.width : ValueType → Nat
  | .i32 => 32
  | .f32 => 32
  | .u8 => 8
  | .u16 => 16
  | .u32 => 32

/-- The eight causes a command can fault for (60_exceptions.md R93). -/
inductive FaultCode where
  /-- OP is neither ENC nor DEC. -/
  | fOp
  /-- VT names no value type. -/
  | fType
  /-- A reserved bit is set, or V is set in a DEC. -/
  | fRsv
  /-- TB and VC do not give a sub-value width of 1 to 4 bytes. -/
  | fSchema
  /-- The field does not lie inside PBUF. -/
  | fRange
  /-- The field is wider than the output type of a DEC. -/
  | fWidth
  /-- SCALE is not a positive finite number. -/
  | fScale
  /-- The input of a valid ENC.F32 is a NaN. -/
  | fNan
deriving DecidableEq, Repr

/-- The ten commands (30_encoding.md R58, R61). `v` is the validity flag of an encode, `tb` and `vc` are
total_bytes and value_count, `sg` is true for a signed field (30_encoding.md R53 to R55). A field of a
command word that no row matches has no constructor: the decoder gives it a fault code. -/
inductive Instr where
  | encI32 (v : Bool) (tb vc : Nat) (sg : Bool)
  | encF32 (v : Bool) (tb vc : Nat) (sg : Bool)
  | encU8 (v : Bool) (tb vc : Nat) (sg : Bool)
  | encU16 (v : Bool) (tb vc : Nat) (sg : Bool)
  | encU32 (v : Bool) (tb vc : Nat) (sg : Bool)
  | decI32 (tb vc : Nat) (sg : Bool)
  | decF32 (tb vc : Nat) (sg : Bool)
  | decU8 (tb vc : Nat) (sg : Bool)
  | decU16 (tb vc : Nat) (sg : Bool)
  | decU32 (tb vc : Nat) (sg : Bool)
deriving DecidableEq, Repr

namespace Instr

/-- Whether the command is an encode, OP = 0x1 (30_encoding.md R51). -/
def isEnc : Instr → Bool
  | .encI32 .. | .encF32 .. | .encU8 .. | .encU16 .. | .encU32 .. => true
  | .decI32 .. | .decF32 .. | .decU8 .. | .decU16 .. | .decU32 .. => false

/-- The command's value type, field VT (30_encoding.md R52). -/
def valueType : Instr → ValueType
  | .encI32 .. | .decI32 .. => .i32
  | .encF32 .. | .decF32 .. => .f32
  | .encU8 .. | .decU8 .. => .u8
  | .encU16 .. | .decU16 .. => .u16
  | .encU32 .. | .decU32 .. => .u32

/-- Field V: the validity of an encode's input; 0 in a decode (30_encoding.md R53). -/
def validFlag : Instr → Bool
  | .encI32 v _ _ _ | .encF32 v _ _ _ | .encU8 v _ _ _ | .encU16 v _ _ _ | .encU32 v _ _ _ => v
  | .decI32 .. | .decF32 .. | .decU8 .. | .decU16 .. | .decU32 .. => false

/-- Field TB, total_bytes (30_encoding.md R54). -/
def totalBytes : Instr → Nat
  | .encI32 _ tb _ _ | .encF32 _ tb _ _ | .encU8 _ tb _ _ | .encU16 _ tb _ _ | .encU32 _ tb _ _ => tb
  | .decI32 tb _ _ | .decF32 tb _ _ | .decU8 tb _ _ | .decU16 tb _ _ | .decU32 tb _ _ => tb

/-- Field VC, value_count (30_encoding.md R54). -/
def valueCount : Instr → Nat
  | .encI32 _ _ vc _ | .encF32 _ _ vc _ | .encU8 _ _ vc _ | .encU16 _ _ vc _ | .encU32 _ _ vc _ => vc
  | .decI32 _ vc _ | .decF32 _ vc _ | .decU8 _ vc _ | .decU16 _ vc _ | .decU32 _ vc _ => vc

/-- Field SG, is_signed (30_encoding.md R55). -/
def signed : Instr → Bool
  | .encI32 _ _ _ sg | .encF32 _ _ _ sg | .encU8 _ _ _ sg | .encU16 _ _ _ sg | .encU32 _ _ _ sg => sg
  | .decI32 _ _ sg | .decF32 _ _ sg | .decU8 _ _ sg | .decU16 _ _ sg | .decU32 _ _ sg => sg

end Instr

end Sys2Proof
end

