-- ==== Sys2Proof/WellFormed.lean ====
section
/-! DEFINITION. Which terms of `Instr` a command word can carry: TB and VC are unsigned 8-bit fields
(30_encoding.md R54). A pair that is not SchemaOK is a legal spelling that faults at execution (R59), so it is
well formed here. -/

namespace Sys2Proof

/-- Both schema fields fit their 8 bits: "TB and VC are decimal integers 0 to 255" (30_encoding.md R61). -/
abbrev Instr.WellFormed (i : Instr) : Prop := i.totalBytes < 256 ∧ i.valueCount < 256

end Sys2Proof
end

