-- ==== Sys2Proof/Decode.lean ====
section
/-! DEFINITION. The decoder of command words, total on every 32-bit word and rejecting by fault code, then the
encoder and the match/mask table (30_encoding.md R50 to R61). -/

namespace Sys2Proof

/-- What the decoder says of a word: a command, or the fault code of the first check it fails
(30_encoding.md R58). -/
inductive Verdict where
  | command (i : Instr)
  | illegal (c : FaultCode)
deriving DecidableEq, Repr

/-! The fields of a command word (30_encoding.md R50). -/

/-- OP = CMD[31:28]. -/
def opField (c : Word) : BitVec 4 := c.extractLsb' 28 4

/-- VT = CMD[27:25]. -/
def vtField (c : Word) : BitVec 3 := c.extractLsb' 25 3

/-- V = CMD[24]. -/
def vField (c : Word) : Bool := c.getLsbD 24

/-- TB = CMD[23:16]. -/
def tbField (c : Word) : BitVec 8 := c.extractLsb' 16 8

/-- VC = CMD[15:8]. -/
def vcField (c : Word) : BitVec 8 := c.extractLsb' 8 8

/-- SG = CMD[7]. -/
def sgField (c : Word) : Bool := c.getLsbD 7

/-- RSV = CMD[6:0], which must be 0 (30_encoding.md R56). -/
def rsvField (c : Word) : BitVec 7 := c.extractLsb' 0 7

/-- The value type a VT field names; 0b101, 0b110 and 0b111 name none (30_encoding.md R52). -/
def valueTypeOf (vt : BitVec 3) : Option ValueType :=
  match vt.toNat with
  | 0 => some .i32
  | 1 => some .f32
  | 2 => some .u8
  | 3 => some .u16
  | 4 => some .u32
  | _ => none

/-- The encode command of a value type (30_encoding.md R58, "ENC." ++ name(vt)). -/
def encOf (t : ValueType) (v : Bool) (tb vc : Nat) (sg : Bool) : Instr :=
  match t with
  | .i32 => .encI32 v tb vc sg
  | .f32 => .encF32 v tb vc sg
  | .u8 => .encU8 v tb vc sg
  | .u16 => .encU16 v tb vc sg
  | .u32 => .encU32 v tb vc sg

/-- The decode command of a value type (30_encoding.md R58, "DEC." ++ name(vt)). -/
def decOf (t : ValueType) (tb vc : Nat) (sg : Bool) : Instr :=
  match t with
  | .i32 => .decI32 tb vc sg
  | .f32 => .decF32 tb vc sg
  | .u8 => .decU8 tb vc sg
  | .u16 => .decU16 tb vc sg
  | .u32 => .decU32 tb vc sg

/-- The decoding procedure, its checks in the order of 30_encoding.md R58: OP, then VT, then the reserved
bits and a decode's V. -/
def decode (c : Word) : Verdict :=
  if opField c ≠ 0x1#4 ∧ opField c ≠ 0x2#4 then .illegal .fOp
  else
    match valueTypeOf (vtField c) with
    | none => .illegal .fType
    | some t =>
      if rsvField c ≠ 0#7 ∨ (opField c = 0x2#4 ∧ vField c = true) then .illegal .fRsv
      else if opField c = 0x1#4 then
        .command (encOf t (vField c) (tbField c).toNat (vcField c).toNat (sgField c))
      else .command (decOf t (tbField c).toNat (vcField c).toNat (sgField c))

/-! The encoder. -/

/-- The VT field of a value type (30_encoding.md R52). -/
def ValueType.field : ValueType → BitVec 3
  | .i32 => 0b000#3
  | .f32 => 0b001#3
  | .u8 => 0b010#3
  | .u16 => 0b011#3
  | .u32 => 0b100#3

/-- The OP field of a command: 0x1 ENC, 0x2 DEC (30_encoding.md R51). -/
def Instr.opBits (i : Instr) : BitVec 4 := if i.isEnc then 0x1#4 else 0x2#4

/-- The command word of an instruction: "(OP << 28) | (VT << 25) | (V << 24) | (TB << 16) | (VC << 8) |
(SG << 7)" (30_encoding.md R61). -/
def encode (i : Instr) : Word :=
  (i.opBits.setWidth 32 <<< 28) ||| (i.valueType.field.setWidth 32 <<< 25)
    ||| ((BitVec.ofBool i.validFlag).setWidth 32 <<< 24)
    ||| ((BitVec.ofNat 8 i.totalBytes).setWidth 32 <<< 16)
    ||| ((BitVec.ofNat 8 i.valueCount).setWidth 32 <<< 8)
    ||| ((BitVec.ofBool i.signed).setWidth 32 <<< 7)

/-! The opcode table. -/

/-- A row of the opcode table: "A word matches a row when (c AND mask) = match" (30_encoding.md R58). -/
structure OpcodeRow where
  mnemonic : String
  pattern : Word
  mask : Word
deriving DecidableEq, Repr

/-- Whether a word matches a row (30_encoding.md R58). -/
def OpcodeRow.accepts (r : OpcodeRow) (c : Word) : Bool := c &&& r.mask == r.pattern

/-- The ten match/mask pairs of 30_encoding.md R58. -/
def opcodeRows : List OpcodeRow :=
  [ ⟨"ENC.I32", 0x10000000, 0xFE00007F⟩,
    ⟨"ENC.F32", 0x12000000, 0xFE00007F⟩,
    ⟨"ENC.U8", 0x14000000, 0xFE00007F⟩,
    ⟨"ENC.U16", 0x16000000, 0xFE00007F⟩,
    ⟨"ENC.U32", 0x18000000, 0xFE00007F⟩,
    ⟨"DEC.I32", 0x20000000, 0xFF00007F⟩,
    ⟨"DEC.F32", 0x22000000, 0xFF00007F⟩,
    ⟨"DEC.U8", 0x24000000, 0xFF00007F⟩,
    ⟨"DEC.U16", 0x26000000, 0xFF00007F⟩,
    ⟨"DEC.U32", 0x28000000, 0xFF00007F⟩ ]

/-- The mnemonic of a command as the opcode table spells it (30_encoding.md R58). -/
def Instr.mnemonic : Instr → String
  | .encI32 .. => "ENC.I32"
  | .encF32 .. => "ENC.F32"
  | .encU8 .. => "ENC.U8"
  | .encU16 .. => "ENC.U16"
  | .encU32 .. => "ENC.U32"
  | .decI32 .. => "DEC.I32"
  | .decF32 .. => "DEC.F32"
  | .decU8 .. => "DEC.U8"
  | .decU16 .. => "DEC.U16"
  | .decU32 .. => "DEC.U32"

/-- The instruction the decoder reads from a word numbered as the opcode table numbers its bits. Every command
is exactly one 32-bit word, written whole to CMD, so there is no byte order to choose (30_encoding.md R60,
10_state.md R17). -/
def decodeTableWord (nbits w : Nat) : Option Instr :=
  match decode (BitVec.ofNat 32 (w % 2 ^ nbits)) with
  | .command i => some i
  | .illegal _ => none

end Sys2Proof
end

