-- ==== Sys2Proof/Config.lean ====
section
/-! DEFINITION. What an implementation or the platform fixes and the spec leaves open. Every constant here
is opaque: no proof can learn its value. -/

namespace Sys2Proof.Config

/-- The offset of the last byte of PBUF, that is BUF_CAP - 1. BUF_CAP is OPEN with 1 <= BUF_CAP <= 65536
(00_scope.md R8, decision D3), and a 16-bit top offset admits exactly those capacities. The machine's
capacity is the field `bufTop` of State, which no step changes; this constant is only the value that
`State.reset` gives that field (log entry 2). -/
opaque bufTop : BitVec 16

/-- The FREE VALUE of a PBUF byte that neither the host nor an ENC has written since a reset: "each byte may
hold any value" (70_reset_and_hazards.md R111). The first argument counts resets, the second is the PBUF
offset (log entry 3). -/
opaque pbufFree : Nat → Nat → Byte

/-- REG_BASE, the host address of the register window: OPEN, and no rule reads it (20_memory.md R42). -/
opaque regBase : Nat

/-- PBUF_BASE, the host address of PBUF[0]: OPEN, and no rule reads it (20_memory.md R42). -/
opaque pbufBase : Nat

end Sys2Proof.Config
end

