-- ==== Sys2Proof/Machine/State.lean ====
section
/-! DEFINITION. The state of FXCODEC as plain data: the seven interface registers, PBUF, the capacity of PBUF,
and the host port's traffic (10_state.md R13 to R32); the reasons a step can stop; the state after reset. -/

namespace Sys2Proof.Machine

/-- Why the machine stops at a host access to an address the spec does not give the block. A command's own
faults are NOT these: they are recorded in STATUS and the machine goes on (60_exceptions.md R96, R99). -/
inductive Fault where
  /-- Raised by the host port for a register access at an offset of 64 or more, outside the 64-byte window
  (10_state.md R16, 20_memory.md R42). Safe: the spec gives no such address. -/
  | outsideWindow
  /-- Raised by the host port for a PBUF access at an offset of BUF_CAP or more (10_state.md R27, 20_memory.md
  R34). Safe: the spec gives no such byte. -/
  | outsidePbuf
deriving DecidableEq, Repr

/-- Why the model gives a step no meaning. -/
inductive Refusal where
  /-- Raised by an arm of `exec` whose instruction has no meaning yet. Safe. No arm raises it now. -/
  | notModelled (mnemonic : String)
  /-- Raised by the host port for a register access that is not 32 bits wide: "not admitted: the model refuses
  it" (10_state.md R17). Safe. -/
  | registerSize
  /-- Raised by the host port for a register access at an offset that is not a multiple of 4 (10_state.md R17).
  Safe. -/
  | registerAlignment
deriving DecidableEq, Repr

/-- The seven interface registers (10_state.md R16). -/
inductive Reg where
  | cmd
  | status
  | scale
  | vin
  | offset
  | vout
  | nbytes
deriving DecidableEq, Repr

/-- One thing the world outside does to the block, each one indivisible (10_state.md R15, R17; 20_memory.md
R34, R46; 70_reset_and_hazards.md R109). Register offsets are from REG_BASE and PBUF offsets from PBUF_BASE;
`size` is the width of a register access in bytes. -/
inductive HostOp where
  | regRead (off size : Nat)
  | regWrite (off size : Nat) (value : Word)
  | pbufRead (off : Nat)
  | pbufWrite (off : Nat) (value : Byte)
  | reset
deriving DecidableEq, Repr

/-- What a host read returned. -/
inductive Response where
  | word (w : Word)
  | byte (b : Byte)
deriving DecidableEq, Repr

/-- PBUF's written bytes: offset and byte, offsets strictly rising. An offset that is not listed has not been
written since the last reset, and reads as a free value (70_reset_and_hazards.md R111). -/
abbrev Memory := List Host.Cell

structure State where
  /-- CMD: the last command word written (10_state.md R18). -/
  cmd : Word
  /-- STATUS.VALID, bit 0: validity of the last completed DEC (10_state.md R19). -/
  valid : Bool
  /-- STATUS.FAULT, bit 1: sticky fault flag (10_state.md R19). -/
  fault : Bool
  /-- STATUS.FCAUSE, bits 7:4: code of the first fault since FAULT was cleared (10_state.md R19). -/
  fcause : BitVec 4
  /-- SCALE: the scale factor, a binary32 pattern (10_state.md R21). -/
  scale : Word
  /-- VIN: the value operand of ENC commands (10_state.md R22). -/
  vin : Word
  /-- OFFSET: the cursor, of which 16 bits are implemented (10_state.md R23). -/
  offset : BitVec 16
  /-- VOUT: the value output of the last completed DEC (10_state.md R24). -/
  vout : Word
  /-- NBYTES: the byte count of the last command, of which 3 bits are implemented (10_state.md R25). -/
  nbytes : BitVec 3
  /-- PBUF: the bytes written since the last reset (10_state.md R27). -/
  pbuf : Memory
  /-- BUF_CAP - 1: the capacity of the attached buffer. A parameter of the machine: no step changes it
  (00_scope.md R8). -/
  bufTop : BitVec 16
  /-- Model's own: how many resets have been applied, which indexes the free PBUF bytes (log entry 3). -/
  epoch : Nat
  /-- The HOST agent: what it does next at the single host port, in order (10_state.md R15, 20_memory.md R46,
  log entry 1). -/
  pending : List HostOp
  /-- The HOST agent: what its reads returned, the latest first (log entry 1). -/
  returned : List Response
deriving DecidableEq, Repr

namespace State

/-- The machine right after reset (10_state.md R31): every register 0 but SCALE, which is 1.0; no byte of PBUF
written; the host has nothing pending, so the block waits (70_reset_and_hazards.md R110). -/
def reset : State where
  cmd := 0x00000000#32
  valid := false
  fault := false
  fcause := 0x0#4
  scale := 0x3F800000#32
  vin := 0x00000000#32
  offset := 0x0000#16
  vout := 0x00000000#32
  nbytes := 0b000#3
  pbuf := []
  bufTop := Config.bufTop
  epoch := 0
  pending := []
  returned := []

end State

end Sys2Proof.Machine
end

