-- ==== Sys2Proof/Machine/Flags.lean ====
section
/-! DEFINITION. The STATUS register: the fault codes, the word a host read returns, what a host write clears,
and which cause a fault records (10_state.md R19, R20, R26; 60_exceptions.md R93, R97). -/

namespace Sys2Proof

/-- The code STATUS.FCAUSE records for a fault (60_exceptions.md R93). -/
def FaultCode.code : FaultCode → BitVec 4
  | .fOp => 1#4
  | .fType => 2#4
  | .fRsv => 3#4
  | .fSchema => 4#4
  | .fRange => 5#4
  | .fWidth => 6#4
  | .fScale => 7#4
  | .fNan => 8#4

end Sys2Proof

namespace Sys2Proof.Machine

/-- The STATUS word: VALID in bit 0, FAULT in bit 1, FCAUSE in bits 7:4, every other bit 0 (10_state.md R19). -/
def statusWord (valid fault : Bool) (fcause : BitVec 4) : Word :=
  0#24 ++ fcause ++ 0#2 ++ BitVec.ofBool fault ++ BitVec.ofBool valid

/-- Whether a host write of this value to STATUS clears the fault state: bit 1, and no other bit
(10_state.md R20). -/
def statusWriteClears (v : Word) : Bool := v.getLsbD 1

/-- FCAUSE after a fault: the first cause is kept while FAULT is 1 (60_exceptions.md R96, R97). -/
def recordedCause (fault : Bool) (fcause : BitVec 4) (c : FaultCode) : BitVec 4 :=
  if fault then fcause else c.code

end Sys2Proof.Machine
end

