-- ==== Sys2Proof/Machine/Float.lean ====
section
/-! DEFINITION. binary32 and the float units, exact in Q: the value of a pattern, its classes, the two
roundings, the scale check, the float-to-fixed multiplier and the fixed-to-float divider (00_scope.md R11;
40_datapath.md R69, R71 to R75). -/

namespace Sys2Proof.Machine

/-- 2^k as an exact rational. -/
def pow2 : Int → Rat
  | .ofNat n => ((2 ^ n : Nat) : Rat)
  | .negSucc n => mkRat 1 (2 ^ (n + 1))

/-- The biased exponent, bits 30:23 (00_scope.md R11). -/
def f32Exp (b : Word) : Nat := (b.extractLsb' 23 8).toNat

/-- The fraction, bits 22:0 (00_scope.md R11). -/
def f32Frac (b : Word) : Nat := (b.extractLsb' 0 23).toNat

/-- The magnitude of a finite pattern (00_scope.md R11). -/
def f32Mag (b : Word) : Rat :=
  if f32Exp b = 0 then (f32Frac b : Rat) * pow2 (-149)
  else ((2 ^ 23 + f32Frac b : Nat) : Rat) * pow2 ((f32Exp b : Int) - 150)

/-- `f32val`: the value of a finite pattern (00_scope.md R11). Infinities and NaNs have no value in Q, and no
command asks for theirs: the checks of 60_exceptions.md R94 come first. -/
def f32val (b : Word) : Rat := if b.getLsbD 31 then -f32Mag b else f32Mag b

/-- `IsNaN` (40_datapath.md R71). -/
def isNaN (b : Word) : Bool := f32Exp b == 0xFF && f32Frac b != 0

/-- `IsInf` (40_datapath.md R71). -/
def isInf (b : Word) : Bool := f32Exp b == 0xFF && f32Frac b == 0

/-- `ScaleOK`: neither NaN nor infinite, and greater than 0 (40_datapath.md R71). -/
def scaleOk (s : Word) : Bool := !isNaN s && !isInf s && decide (0 < f32val s)

/-- `RNE_int`: the nearest integer, and of two equally near the even one (40_datapath.md R73). -/
def rneInt (q : Rat) : Int :=
  let n := q.floor
  let r := q - (n : Rat)
  if r < 1 / 2 then n
  else if 1 / 2 < r then n + 1
  else if n % 2 = 0 then n
  else n + 1

/-- The exponent k of a positive q, with 2^k <= q < 2^(k+1): the bit lengths of numerator and denominator
give it or one more. -/
def binExp (q : Rat) : Int :=
  let k := (q.num.natAbs.log2 : Int) - (q.den.log2 : Int)
  if pow2 k ≤ q then k else k - 1

/-- Exponent field and fraction of the finite binary32 value nearest a positive q below 2^128 - 2^103, as one
number: q is a count of units of 2^(e-150), rounded to nearest, ties to even, where e is q's biased exponent, or
1 for a subnormal q. A count that rounds up to the next power of two carries into the exponent field. -/
def f32MagBits (q : Rat) : Nat :=
  let e := max 1 (binExp q + 127)
  (e - 1).toNat * 2 ^ 23 + (rneInt (q * pow2 (150 - e))).toNat

/-- `RNE_f32` (40_datapath.md R74): +0.0 for 0, an infinity from 2^128 - 2^103 on, else the nearest finite
pattern, ties to the even fraction. -/
def rneF32 (q : Rat) : Word :=
  if q = 0 then 0x00000000#32
  else if pow2 128 - pow2 103 ≤ |q| then (if 0 < q then 0x7F800000#32 else 0xFF800000#32)
  else BitVec.ofNat 32 ((if q < 0 then 2 ^ 31 else 0) + f32MagBits |q|)

/-- The lower saturation bound (40_datapath.md R69). -/
def satLo (sg : Bool) : Int := if sg then -2 ^ 31 else 0

/-- The upper saturation bound (40_datapath.md R69). -/
def satHi (sg : Bool) : Int := if sg then 2 ^ 31 - 1 else 2 ^ 32 - 1

/-- The integer n of `Fix`, before it is taken mod 2^32: infinities saturate, a finite product is rounded once
from its exact value and clamped (40_datapath.md R72). -/
def fixInt (b s : Word) (sg : Bool) : Int :=
  if isInf b then (if b.getLsbD 31 then satLo sg else satHi sg)
  else min (satHi sg) (max (satLo sg) (rneInt (f32val b * f32val s)))

/-- `Fix`, the float-to-fixed multiplier (40_datapath.md R72). -/
def fix (b s : Word) (sg : Bool) : Word := BitVec.ofInt 32 (fixInt b s sg)

/-- `Unfix`, the fixed-to-float divider: the exact quotient, rounded once (40_datapath.md R75). -/
def unfix (r : Int) (s : Word) : Word := rneF32 ((r : Rat) / f32val s)

end Sys2Proof.Machine
end

