-- ==== Sys2Proof/Machine/Operands.lean ====
section
/-! DEFINITION. The integer units of the datapath: width decoder, sentinels, byte order, reassembly, input
conversion and output narrowing (40_datapath.md R63 to R70, R76; 00_scope.md R10, R12). -/

namespace Sys2Proof.Machine

/-- `SchemaOK`: VC is not 0, divides TB, and gives a width of 1 to 4 bytes (40_datapath.md R63). -/
def schemaOk (tb vc : Nat) : Bool :=
  vc != 0 && tb % vc == 0 && decide (1 ≤ tb / vc) && decide (tb / vc ≤ 4)

/-- `w(TB, VC)`, the sub-value width in bytes (40_datapath.md R63). -/
def fieldWidth (tb vc : Nat) : Nat := tb / vc

/-- The integer a list of bytes spells, the first byte most significant (20_memory.md R33). -/
def beNat (bs : List Byte) : Nat := bs.foldl (fun acc b => acc * 256 + b.toNat) 0

/-- The byte of an n-byte string that goes to the i-th offset from the lowest: v[8(n-1-i)+7 : 8(n-1-i)]
(00_scope.md R10, MemWrite). -/
def beByte (n : Nat) (v : BitVec (8 * n)) (i : Nat) : Byte := v.extractLsb' (8 * (n - 1 - i)) 8

/-- The n bytes of a string in the order they are stored, most significant first (20_memory.md R33). -/
def beBytes (n : Nat) (v : BitVec (8 * n)) : List Byte := (List.range n).map (beByte n v)

/-- The byte a sentinel repeats: 0x7F signed, 0xFF unsigned (40_datapath.md R64). -/
def sentinelByte (sg : Bool) : Byte := if sg then 0x7F#8 else 0xFF#8

/-- `SENT(w, SG)`: that byte repeated w times (40_datapath.md R64). -/
def sentinel (w : Nat) (sg : Bool) : BitVec (8 * w) :=
  BitVec.ofNat (8 * w) (beNat (List.replicate w (sentinelByte sg)))

/-- `IsSent`: exact equality of all 8w bits (40_datapath.md R65). -/
def isSentinel (w : Nat) (u : BitVec (8 * w)) (sg : Bool) : Bool := u == sentinel w sg

/-- `raw`: the field read as a signed or an unsigned integer (40_datapath.md R68). -/
def raw (w : Nat) (u : BitVec (8 * w)) (sg : Bool) : Int := if sg then u.toInt else (u.toNat : Int)

/-- `raw32`: the field sign- or zero-extended to 32 bits (40_datapath.md R68). -/
def raw32 (w : Nat) (u : BitVec (8 * w)) (sg : Bool) : Word :=
  if sg then u.signExtend 32 else u.setWidth 32

/-- `To32`: the 32-bit pattern an integer input gives. Bits above the type's width are ignored; nothing is
scaled or clamped (40_datapath.md R70). An F32 input does not pass here. -/
def to32 (t : ValueType) (vin : Word) : Word :=
  match t with
  | .i32 => vin
  | .f32 => vin
  | .u8 => (vin.extractLsb' 0 8).setWidth 32
  | .u16 => (vin.extractLsb' 0 16).setWidth 32
  | .u32 => vin

/-- `Narrow`: the output of an integer decode (40_datapath.md R76). An F32 output does not pass here. -/
def narrow (t : ValueType) (x : Word) : Word :=
  match t with
  | .i32 => x
  | .f32 => x
  | .u8 => (x.extractLsb' 0 8).setWidth 32
  | .u16 => (x.extractLsb' 0 16).setWidth 32
  | .u32 => x

/-- `WidthOK`: the field is no wider than the output type (40_datapath.md R76). For F32 this is 8w <= 32, which
every legal width meets. -/
def widthOk (t : ValueType) (w : Nat) : Bool := decide (8 * w ≤ t.width)

/-- The 32-bit pattern an encode packs: the sentinel when V = 0, the scaled and rounded float, or the integer
as it is (41_encode.md R79). -/
def encPattern (t : ValueType) (v : Bool) (w : Nat) (sg : Bool) (vin scale : Word) : Word :=
  if v = false then (sentinel w sg).setWidth 32
  else if t = .f32 then fix vin scale sg
  else to32 t vin

/-- VOUT of a decode whose field is not the sentinel (42_decode.md R85). -/
def decPattern (t : ValueType) (w : Nat) (u : BitVec (8 * w)) (sg : Bool) (scale : Word) : Word :=
  if t = .f32 then unfix (raw w u sg) scale else narrow t (raw32 w u sg)

end Sys2Proof.Machine
end

