-- ==== Sys2Proof/Machine/Ops.lean ====
section
/-! DEFINITION. The operations over PBUF and the registers that the commands and the host port share: memory
reads and writes, taking a fault and returning from one, register reads and writes, reset. -/

namespace Sys2Proof.Machine

namespace Memory

/-- What a memory reads as at an offset it does not list: no byte, the offset is unwritten
(70_reset_and_hazards.md R111, log entry 3). -/
def unlisted : Option Byte := none

/-- The byte written at an offset, if one was. -/
def lookup : Memory → Nat → Option Byte
  | [], _ => unlisted
  | (k, b) :: rest, a => if k = a then some b else lookup rest a

/-- Write one byte, keeping the offsets strictly rising. -/
def write : Memory → Nat → Byte → Memory
  | [], a, v => [(a, v)]
  | (k, b) :: rest, a, v =>
    if a < k then (a, v) :: (k, b) :: rest
    else if a = k then (a, v) :: rest
    else (k, b) :: write rest a v

/-- Write bytes at consecutive offsets from `a` up. -/
def writeBytes : Memory → Nat → List Byte → Memory
  | m, _, [] => m
  | m, a, b :: bs => writeBytes (write m a b) (a + 1) bs

/-- The canonical form: offsets strictly rising, and no entry equal to what an unlisted offset reads as. -/
abbrev wf (m : Memory) : Prop :=
  m.Pairwise (fun x y => x.1 < y.1) ∧ ∀ c ∈ m, some c.2 ≠ unlisted

end Memory

namespace State

/-- BUF_CAP, between 1 and 65536 (00_scope.md R8). -/
def bufCap (s : State) : Nat := s.bufTop.toNat + 1

/-- The cursor, uval(OFFSET[15:0]) (30_encoding.md R57). -/
def cursor (s : State) : Nat := s.offset.toNat

/-- The byte PBUF holds at an offset: the byte written there, or the free value of a byte nobody has written
since the last reset (70_reset_and_hazards.md R111). -/
def pbufByte (s : State) (a : Nat) : Byte := (s.pbuf.lookup a).getD (Config.pbufFree s.epoch a)

/-- `MemRead(a, n)`: n bytes, the lowest offset most significant (00_scope.md R10). -/
def memRead (s : State) (a n : Nat) : BitVec (8 * n) :=
  BitVec.ofNat (8 * n) (beNat ((List.range n).map (fun i => s.pbufByte (a + i))))

/-- `MemWrite(a, n, v)`: n bytes, the most significant at the lowest offset, and no other byte
(00_scope.md R10). -/
def memWrite (s : State) (a n : Nat) (v : BitVec (8 * n)) : State :=
  { s with pbuf := s.pbuf.writeBytes a (beBytes n v) }

/-- `raise Fault(code)`, taking a fault: NBYTES is 0, the first cause is recorded, FAULT is set, and nothing
else changes: there is no vector, saved counter or mode (60_exceptions.md R96, R97, R101). -/
def raise (c : FaultCode) (s : State) : State :=
  { s with nbytes := 0#3, fcause := recordedCause s.fault s.fcause c, fault := true }

/-- Return from a fault: FAULT and FCAUSE are cleared together (60_exceptions.md R98, 10_state.md R20). -/
def clearFault (s : State) : State := { s with fault := false, fcause := 0#4 }

/-- A completed encode: the low-order w bytes of the pattern are packed at the cursor and NBYTES is w
(41_encode.md R79, 40_datapath.md R66). -/
def finishEnc (w : Nat) (x : Word) (s : State) : State :=
  { s.memWrite s.cursor w (x.setWidth (8 * w)) with nbytes := BitVec.ofNat 3 w }

/-- A completed decode: VOUT, STATUS.VALID and NBYTES, and nothing else (42_decode.md R85). -/
def finishDec (w : Nat) (valid : Bool) (vout : Word) (s : State) : State :=
  { s with vout := vout, valid := valid, nbytes := BitVec.ofNat 3 w }

/-- The first fault that applies to an encode, in the order of 60_exceptions.md R94 (41_encode.md R79). -/
def encFault (t : ValueType) (v : Bool) (tb vc : Nat) (s : State) : Option FaultCode :=
  if schemaOk tb vc = false then some .fSchema
  else if s.bufCap < s.cursor + fieldWidth tb vc then some .fRange
  else if t = .f32 ∧ scaleOk s.scale = false then some .fScale
  else if t = .f32 ∧ v = true ∧ isNaN s.vin = true then some .fNan
  else none

/-- The first fault that applies to a decode, in the order of 60_exceptions.md R94 (42_decode.md R85). -/
def decFault (t : ValueType) (tb vc : Nat) (s : State) : Option FaultCode :=
  if schemaOk tb vc = false then some .fSchema
  else if s.bufCap < s.cursor + fieldWidth tb vc then some .fRange
  else if widthOk t (fieldWidth tb vc) = false then some .fWidth
  else if t = .f32 ∧ scaleOk s.scale = false then some .fScale
  else none

/-- The encode sequence (41_encode.md R79). -/
def encodeSequence (t : ValueType) (v : Bool) (tb vc : Nat) (sg : Bool) (s : State) : State :=
  match s.encFault t v tb vc with
  | some c => s.raise c
  | none =>
    let w := fieldWidth tb vc
    s.finishEnc w (encPattern t v w sg s.vin s.scale)

/-- The decode sequence (42_decode.md R85). The output of a field that holds the sentinel is 0. -/
def decodeSequence (t : ValueType) (tb vc : Nat) (sg : Bool) (s : State) : State :=
  match s.decFault t tb vc with
  | some c => s.raise c
  | none =>
    let w := fieldWidth tb vc
    let u := s.memRead s.cursor w
    s.finishDec w (!isSentinel w u sg) (if isSentinel w u sg then 0#32 else decPattern t w u sg s.scale)

/-! The host's view of the registers. -/

/-- What a host read of a register returns; unimplemented bits read as zero (10_state.md R16 to R25). -/
def readReg (s : State) : Reg → Word
  | .cmd => s.cmd
  | .status => statusWord s.valid s.fault s.fcause
  | .scale => s.scale
  | .vin => s.vin
  | .offset => s.offset.setWidth 32
  | .vout => s.vout
  | .nbytes => s.nbytes.setWidth 32

/-- What a host write of a value stores. STATUS clears the fault state when bit 1 is set (10_state.md R20);
OFFSET keeps 16 bits (R23); VOUT and NBYTES are read only (R17). For CMD this is the storing alone: the command
then executes (R18). -/
def writeReg (s : State) (r : Reg) (v : Word) : State :=
  match r with
  | .cmd => { s with cmd := v }
  | .status => if statusWriteClears v then s.clearFault else s
  | .scale => { s with scale := v }
  | .vin => { s with vin := v }
  | .offset => { s with offset := v.setWidth 16 }
  | .vout => s
  | .nbytes => s

/-- A host read returns a value. -/
def respond (r : Response) (s : State) : State := { s with returned := r :: s.returned }

/-- The reset input: every register takes its value of 10_state.md R31. No command executes. PBUF's bytes are
unspecified afterwards (70_reset_and_hazards.md R109, R111): each is a free value of a new epoch, which may be
the byte it held (log entry 4). The capacity and the host's own traffic are no state of the block. -/
def applyReset (s : State) : State :=
  { reset with bufTop := s.bufTop, epoch := s.epoch + 1, pending := s.pending, returned := s.returned }

end State

/-- The register at an offset of the window, if one is; 0x1C to 0x3C are reserved (10_state.md R16). -/
def Reg.ofOffset : Nat → Option Reg
  | 0x00 => some .cmd
  | 0x04 => some .status
  | 0x08 => some .scale
  | 0x0C => some .vin
  | 0x10 => some .offset
  | 0x14 => some .vout
  | 0x18 => some .nbytes
  | _ => none

/-- The offset of a register (10_state.md R16). -/
def Reg.toOffset : Reg → Nat
  | .cmd => 0x00
  | .status => 0x04
  | .scale => 0x08
  | .vin => 0x0C
  | .offset => 0x10
  | .vout => 0x14
  | .nbytes => 0x18

end Sys2Proof.Machine
end

