-- ==== Sys2Proof/Machine/Decode.lean ====
section
/-! DEFINITION. The meanings of the five decode commands (42_decode.md R86 to R90), each the decode sequence of
R85 at its value type. Every path ends in a next state: a fault of the command is recorded in STATUS. -/

namespace Sys2Proof.Machine

/-- DEC.I32 (42_decode.md R86). -/
def execDecI32 (tb vc : Nat) (sg : Bool) (s : State) : Host.Outcome State Fault Refusal :=
  .next (s.decodeSequence .i32 tb vc sg)

/-- DEC.F32 (42_decode.md R87). -/
def execDecF32 (tb vc : Nat) (sg : Bool) (s : State) : Host.Outcome State Fault Refusal :=
  .next (s.decodeSequence .f32 tb vc sg)

/-- DEC.U8 (42_decode.md R88). -/
def execDecU8 (tb vc : Nat) (sg : Bool) (s : State) : Host.Outcome State Fault Refusal :=
  .next (s.decodeSequence .u8 tb vc sg)

/-- DEC.U16 (42_decode.md R89). -/
def execDecU16 (tb vc : Nat) (sg : Bool) (s : State) : Host.Outcome State Fault Refusal :=
  .next (s.decodeSequence .u16 tb vc sg)

/-- DEC.U32 (42_decode.md R90). -/
def execDecU32 (tb vc : Nat) (sg : Bool) (s : State) : Host.Outcome State Fault Refusal :=
  .next (s.decodeSequence .u32 tb vc sg)

end Sys2Proof.Machine
end

