-- ==== Sys2Proof/Machine/Encode.lean ====
section
/-! DEFINITION. The meanings of the five encode commands (41_encode.md R80 to R84), each the encode sequence of
R79 at its value type. Every path ends in a next state: a fault of the command is recorded in STATUS. -/

namespace Sys2Proof.Machine

/-- ENC.I32 (41_encode.md R80). -/
def execEncI32 (v : Bool) (tb vc : Nat) (sg : Bool) (s : State) : Host.Outcome State Fault Refusal :=
  .next (s.encodeSequence .i32 v tb vc sg)

/-- ENC.F32 (41_encode.md R81). -/
def execEncF32 (v : Bool) (tb vc : Nat) (sg : Bool) (s : State) : Host.Outcome State Fault Refusal :=
  .next (s.encodeSequence .f32 v tb vc sg)

/-- ENC.U8 (41_encode.md R82). -/
def execEncU8 (v : Bool) (tb vc : Nat) (sg : Bool) (s : State) : Host.Outcome State Fault Refusal :=
  .next (s.encodeSequence .u8 v tb vc sg)

/-- ENC.U16 (41_encode.md R83). -/
def execEncU16 (v : Bool) (tb vc : Nat) (sg : Bool) (s : State) : Host.Outcome State Fault Refusal :=
  .next (s.encodeSequence .u16 v tb vc sg)

/-- ENC.U32 (41_encode.md R84). -/
def execEncU32 (v : Bool) (tb vc : Nat) (sg : Bool) (s : State) : Host.Outcome State Fault Refusal :=
  .next (s.encodeSequence .u32 v tb vc sg)

end Sys2Proof.Machine
end

