-- ==== Sys2Proof/Machine/Dispatch.lean ====
section
/-! DEFINITION. One arm per command: its meaning (30_encoding.md R58). -/

namespace Sys2Proof.Machine

def exec (i : Instr) (s : State) : Host.Outcome State Fault Refusal :=
  match i with
  | .encI32 v tb vc sg => Sys2Proof.Machine.execEncI32 v tb vc sg s
  | .encF32 v tb vc sg => Sys2Proof.Machine.execEncF32 v tb vc sg s
  | .encU8 v tb vc sg => Sys2Proof.Machine.execEncU8 v tb vc sg s
  | .encU16 v tb vc sg => Sys2Proof.Machine.execEncU16 v tb vc sg s
  | .encU32 v tb vc sg => Sys2Proof.Machine.execEncU32 v tb vc sg s
  | .decI32 tb vc sg => Sys2Proof.Machine.execDecI32 tb vc sg s
  | .decF32 tb vc sg => Sys2Proof.Machine.execDecF32 tb vc sg s
  | .decU8 tb vc sg => Sys2Proof.Machine.execDecU8 tb vc sg s
  | .decU16 tb vc sg => Sys2Proof.Machine.execDecU16 tb vc sg s
  | .decU32 tb vc sg => Sys2Proof.Machine.execDecU32 tb vc sg s

end Sys2Proof.Machine
end

