-- ==== Sys2Proof/Machine/HostPort.lean ====
section
/-! DEFINITION. The single host port: register accesses, CMD writes, which execute a command, PBUF byte accesses
and the reset input (10_state.md R15 to R25; 20_memory.md R34, R46; 70_reset_and_hazards.md R109). -/

namespace Sys2Proof.Machine

/-- Give a register access its meaning only where the window admits it: inside the 64 bytes, 32 bits wide, at a
multiple of 4 (10_state.md R16, R17). The order of the checks is the model's choice (log entries 5 and 6). -/
def admitRegister (off size : Nat) (meaning : Host.Outcome State Fault Refusal) :
    Host.Outcome State Fault Refusal :=
  if 64 ≤ off then .fault .outsideWindow
  else if size ≠ 4 then .refused .registerSize
  else if off % 4 ≠ 0 then .refused .registerAlignment
  else meaning

/-- Give a PBUF access its meaning only where PBUF has the byte (10_state.md R27; log entry 5). -/
def admitPbuf (off : Nat) (s : State) (meaning : Host.Outcome State Fault Refusal) :
    Host.Outcome State Fault Refusal :=
  if s.bufCap ≤ off then .fault .outsidePbuf else meaning

/-- Execute a command word that CMD now holds: the command it decodes to, or the fault of the first decode check
it fails (10_state.md R18, 30_encoding.md R59). -/
def runWord (c : Word) (s : State) : Host.Outcome State Fault Refusal :=
  match decode c with
  | .command i => exec i s
  | .illegal code => .next (s.raise code)

/-- A host read of the word at an offset. A reserved offset reads as zero. No read has a side effect on the
block (10_state.md R17). -/
def hostRegRead (off : Nat) (s : State) : Host.Outcome State Fault Refusal :=
  match Reg.ofOffset off with
  | some r => .next (s.respond (.word (s.readReg r)))
  | none => .next (s.respond (.word 0#32))

/-- A host write of a word at an offset. A write of CMD stores the word and then executes it; a write to a
reserved offset has no effect (10_state.md R17, R18). -/
def hostRegWrite (off : Nat) (v : Word) (s : State) : Host.Outcome State Fault Refusal :=
  match Reg.ofOffset off with
  | some .cmd => runWord v (s.writeReg .cmd v)
  | some r => .next (s.writeReg r v)
  | none => .next s

/-- One access of the host, or the reset input, as one indivisible step (20_memory.md R39, R46). -/
def hostStep (op : HostOp) (s : State) : Host.Outcome State Fault Refusal :=
  match op with
  | .regRead off size => admitRegister off size (hostRegRead off s)
  | .regWrite off size v => admitRegister off size (hostRegWrite off v s)
  | .pbufRead off => admitPbuf off s (.next (s.respond (.byte (s.pbufByte off))))
  | .pbufWrite off v => admitPbuf off s (.next { s with pbuf := s.pbuf.write off v })
  | .reset => .next s.applyReset

end Sys2Proof.Machine
end

