-- ==== Sys2Proof/Machine/Step.lean ====
section
/-! DEFINITION. One step: the host's next access, or nothing when it has none (10_state.md R14, R15). -/

namespace Sys2Proof.Machine

/-- The block fetches no instructions and has no program counter: it acts on the host's next access, and waits
while there is none (10_state.md R14; 20_memory.md R48; 70_reset_and_hazards.md R110). -/
def step (s : State) : Host.Outcome State Fault Refusal :=
  match s.pending with
  | [] => .next s
  | op :: rest => hostStep op { s with pending := rest }

/-- The state in which the very next step executes this command word: the host's next access is a 32-bit write
of it to CMD, before whatever else was pending (10_state.md R18, log entry 1). -/
def State.withFetchWord (s : State) (nbits w : Nat) : State :=
  { s with pending := .regWrite 0x00 4 (BitVec.ofNat 32 (w % 2 ^ nbits)) :: s.pending }

end Sys2Proof.Machine
end

