-- ==== Sys2Proof/Machine/HostProgram.lean ====
section
/-! DEFINITION. How the spec writes host programs: the command's assembler text (30_encoding.md R61), host
operations and pseudo-instructions as lists of host accesses (R62), and the address map (20_memory.md R42). The
block sees only the accesses: `step` reads none of these names. -/

namespace Sys2Proof

/-- The name of a value type (30_encoding.md R52). -/
def ValueType.text : ValueType → String
  | .i32 => "I32"
  | .f32 => "F32"
  | .u8 => "U8"
  | .u16 => "U16"
  | .u32 => "U32"

/-- The command as the assembler writes it: `ENC.T TB, VC, S|U, V|INV` or `DEC.T TB, VC, S|U`
(30_encoding.md R61). -/
def Instr.text (i : Instr) : String :=
  (if i.isEnc then "ENC." else "DEC.") ++ i.valueType.text ++ " " ++ toString i.totalBytes ++ ", "
    ++ toString i.valueCount ++ ", " ++ (if i.signed then "S" else "U")
    ++ (if i.isEnc then (if i.validFlag then ", V" else ", INV") else "")

end Sys2Proof

namespace Sys2Proof.Machine

/-- The host address an access goes to; a reset is no access (20_memory.md R42). -/
def HostOp.busAddress : HostOp → Option Nat
  | .regRead off _ => some (Config.regBase + off)
  | .regWrite off _ _ => some (Config.regBase + off)
  | .pbufRead off => some (Config.pbufBase + off)
  | .pbufWrite off _ => some (Config.pbufBase + off)
  | .reset => none

/-- `WR reg, imm32` (30_encoding.md R62). -/
def wr (r : Reg) (v : Word) : HostOp := .regWrite r.toOffset 4 v

/-- `RD reg` (30_encoding.md R62). -/
def rd (r : Reg) : HostOp := .regRead r.toOffset 4

/-- `PWR off, b0 b1 ...`: the host writes PBUF byte by byte (30_encoding.md R62, 20_memory.md R34). -/
def pwr : Nat → List Byte → List HostOp
  | _, [] => []
  | off, b :: bs => .pbufWrite off b :: pwr (off + 1) bs

/-- `PRD off, n` (30_encoding.md R62). -/
def prd (off n : Nat) : List HostOp := (List.range n).map (fun i => .pbufRead (off + i))

/-- `SCALE float`, given the float's binary32 pattern (30_encoding.md R62). -/
def setScale (pattern : Word) : List HostOp := [wr .scale pattern]

/-- `SEEK off` (30_encoding.md R62). -/
def seek (off : Word) : List HostOp := [wr .offset off]

/-- `ADV`, the host's cursor step, for a host that will read these registers in state `s`
(30_encoding.md R62, 20_memory.md R44). -/
def advance (s : State) : List HostOp :=
  [rd .nbytes, rd .offset, wr .offset (s.readReg .offset + s.readReg .nbytes)]

/-- `CLRF` (30_encoding.md R62). -/
def clearFaults : List HostOp := [wr .status 0x00000002#32]

/-- `PUT.T val, TB, VC, S or U, V or INV` (30_encoding.md R62). -/
def put (t : ValueType) (val : Word) (tb vc : Nat) (sg v : Bool) : List HostOp :=
  [wr .vin val, wr .cmd (encode (encOf t v tb vc sg))]

/-- `GET.T TB, VC, S or U` (30_encoding.md R62). -/
def get (t : ValueType) (tb vc : Nat) (sg : Bool) : List HostOp :=
  [wr .cmd (encode (decOf t tb vc sg)), rd .status, rd .vout]

end Sys2Proof.Machine
end

