-- ==== Sys2Proof/Safety.lean ====
section
/-! DEFINITION. What claims call a legal state, an admitted access, a legal schema, and a command's outcomes with
what each leaves unchanged. -/

namespace Sys2Proof.Machine

namespace State

/-- PBUF is in its canonical form and lists only offsets it has: 0 to BUF_CAP - 1 (10_state.md R27). -/
abbrev PbufOk (s : State) : Prop := s.pbuf.wf ∧ ∀ c ∈ s.pbuf, c.1 < s.bufCap

/-- STATUS holds a legal value: FCAUSE is 0 when FAULT = 0 and in 1..8 when FAULT = 1 (10_state.md R19). -/
abbrev StatusOk (s : State) : Prop :=
  (s.fault = false → s.fcause = 0#4) ∧ (s.fault = true → 1#4 ≤ s.fcause ∧ s.fcause ≤ 8#4)

/-- NBYTES is 0 to 4 (10_state.md R25). -/
abbrev NbytesOk (s : State) : Prop := s.nbytes ≤ 4#3

/-- VOUT is zero while VALID is 0: a DEC that read the sentinel leaves zero, and so does reset (10_state.md R24,
R31). -/
abbrev VoutOk (s : State) : Prop := s.valid = false → s.vout = 0#32

/-- A legal state: what every step keeps from reset on. -/
structure Inv (s : State) : Prop where
  pbufOk : s.PbufOk
  statusOk : s.StatusOk
  nbytesOk : s.NbytesOk
  voutOk : s.VoutOk

/-- `t` has the operand registers, the command word, the capacity and the host's traffic of `s`: what no command
writes (41_encode.md R79, 42_decode.md R85). -/
structure SameOperands (s t : State) : Prop where
  cmd : t.cmd = s.cmd
  scale : t.scale = s.scale
  vin : t.vin = s.vin
  offset : t.offset = s.offset
  bufTop : t.bufTop = s.bufTop
  epoch : t.epoch = s.epoch
  pending : t.pending = s.pending
  returned : t.returned = s.returned

/-- Whether every byte of the w-byte field at the cursor is the sentinel byte of the signedness, so that the field
is the sentinel (40_datapath.md R64). -/
abbrev ReadsSentinel (s : State) (w : Nat) (sg : Bool) : Prop :=
  ∀ k < w, s.pbufByte (s.cursor + k) = if sg then 0x7F#8 else 0xFF#8

/-- `u` is the big-endian pattern of the w-byte field at the cursor (00_scope.md R10, 20_memory.md R33). -/
abbrev FieldIs (s : State) (w : Nat) (u : BitVec (8 * w)) : Prop :=
  ∀ k < w, s.pbufByte (s.cursor + k) = u.extractLsb' (8 * (w - 1 - k)) 8

/-- SCALE is a positive finite number (40_datapath.md R71). -/
abbrev ScaleLegal (s : State) : Prop := scaleOk s.scale = true

end State

/-- Executing `i` in `s` completes as an encode of the low w bytes of `x`: they lie at the cursor, most significant
first, NBYTES is w, and every other byte of PBUF and every other register is unchanged (41_encode.md R79). -/
def EncCompletes (i : Instr) (s : State) (w : Nat) (x : Word) : Prop :=
  ∃ t, exec i s = .next t
    ∧ t.nbytes.toNat = w
    ∧ (∀ k < w, t.pbufByte (s.cursor + k) = x.extractLsb' (8 * (w - 1 - k)) 8)
    ∧ (∀ a, a < s.cursor ∨ s.cursor + w ≤ a → t.pbufByte a = s.pbufByte a)
    ∧ t.vout = s.vout ∧ t.valid = s.valid ∧ t.fault = s.fault ∧ t.fcause = s.fcause
    ∧ s.SameOperands t

/-- Executing `i` in `s` completes as a decode with this output: NBYTES is w, and every byte of PBUF and every
other register is unchanged (42_decode.md R85). -/
def DecCompletes (i : Instr) (s : State) (w : Nat) (valid : Bool) (vout : Word) : Prop :=
  ∃ t, exec i s = .next t
    ∧ t.nbytes.toNat = w ∧ t.valid = valid ∧ t.vout = vout
    ∧ (∀ a, t.pbufByte a = s.pbufByte a)
    ∧ t.fault = s.fault ∧ t.fcause = s.fcause
    ∧ s.SameOperands t

/-- `t` is `s` after a fault of this code: NBYTES is 0, FAULT is 1, FCAUSE is the code unless FAULT was 1 already,
and nothing else has changed (60_exceptions.md R95 to R97). -/
structure TookFault (s t : State) (code : BitVec 4) : Prop where
  nbytes : t.nbytes = 0#3
  fault : t.fault = true
  fcause : t.fcause = if s.fault then s.fcause else code
  valid : t.valid = s.valid
  vout : t.vout = s.vout
  pbuf : ∀ a, t.pbufByte a = s.pbufByte a
  operands : s.SameOperands t

/-- Executing `i` in `s` raises the fault of this code. -/
def Faults (i : Instr) (s : State) (code : BitVec 4) : Prop := ∃ t, exec i s = .next t ∧ TookFault s t code

/-- TB and VC make a legal schema of width w (40_datapath.md R63). -/
abbrev Schema (tb vc w : Nat) : Prop := 0 < vc ∧ tb = vc * w ∧ 1 ≤ w ∧ w ≤ 4

/-- The accesses the model gives a meaning (10_state.md R17, R27; that an access past the window or past BUF_CAP has
none is the model's choice, log entry 5). -/
def HostOp.admitted (op : HostOp) (s : State) : Bool :=
  match op with
  | .regRead off size => decide (off < 64) && size == 4 && off % 4 == 0
  | .regWrite off size _ => decide (off < 64) && size == 4 && off % 4 == 0
  | .pbufRead off => decide (off < s.bufCap)
  | .pbufWrite off _ => decide (off < s.bufCap)
  | .reset => true

end Sys2Proof.Machine
end

