-- ==== Sys2Proof/Certificates/Slice0/Obligations.lean ====
section
/-! DEFINITION. The statements about the model, for the provers. Each docstring names the rules of spec/ it
formalises. -/

open Sys2Proof Sys2Proof.Machine

/-! ### Encoding -/

/-- Decoding the word of a well-formed command gives the command back (30_encoding.md R58, R61). -/
def Obligations.DecodeOfEncode : Prop :=
  ∀ i : Instr, i.WellFormed → decode (encode i) = .command i

/-- A word that decodes to a command is that command's word, and the command is well formed: each command has one
spelling (30_encoding.md R58, R60). -/
def Obligations.EncodeOfDecode : Prop :=
  ∀ (c : Word) (i : Instr), decode c = .command i → encode i = c ∧ i.WellFormed

/-- The fields of a decoded command are the bits of the word that 30_encoding.md R50 gives them. -/
def Obligations.DecodedFieldsAreTheWordsBits : Prop :=
  ∀ (c : Word) (i : Instr), decode c = .command i →
    c.toNat / 2 ^ 28 = (if i.isEnc then 1 else 2)
      ∧ c.toNat / 2 ^ 25 % 8 = i.valueType.field.toNat
      ∧ c.toNat / 2 ^ 24 % 2 = i.validFlag.toNat
      ∧ i.totalBytes = c.toNat / 2 ^ 16 % 256
      ∧ i.valueCount = c.toNat / 2 ^ 8 % 256
      ∧ i.signed.toNat = c.toNat / 2 ^ 7 % 2

/-- A word decodes to a command exactly when it matches a row of the opcode table, and then to the command of that
row's mnemonic (30_encoding.md R58). -/
def Obligations.DecodeMatchesOpcodeTable : Prop :=
  ∀ (c : Word) (m : String),
    (∃ i : Instr, decode c = .command i ∧ i.mnemonic = m) ↔ ∃ r ∈ opcodeRows, r.accepts c = true ∧ r.mnemonic = m

/-- "No word matches two rows" (30_encoding.md R58). -/
def Obligations.NoWordMatchesTwoRows : Prop :=
  ∀ (c : Word) (r q : OpcodeRow), r ∈ opcodeRows → q ∈ opcodeRows → r.accepts c = true → q.accepts c = true → r = q

/-- The verdict on every illegal word is the first of F_OP, F_TYPE and F_RSV that applies, and no other
(30_encoding.md R59). -/
def Obligations.IllegalWordVerdicts : Prop :=
  ∀ c : Word,
    let op := c.toNat / 2 ^ 28
    let vt := c.toNat / 2 ^ 25 % 8
    let v := c.toNat / 2 ^ 24 % 2
    let rsv := c.toNat % 2 ^ 7
    (decode c = .illegal .fOp ↔ op ≠ 1 ∧ op ≠ 2)
      ∧ (decode c = .illegal .fType ↔ (op = 1 ∨ op = 2) ∧ 5 ≤ vt)
      ∧ (decode c = .illegal .fRsv ↔ (op = 1 ∨ op = 2) ∧ vt < 5 ∧ (rsv ≠ 0 ∨ op = 2 ∧ v = 1))
      ∧ ∀ k : FaultCode, decode c = .illegal k → k = .fOp ∨ k = .fType ∨ k = .fRsv

/-- The spec's own words decode to the commands it says they are: 30_encoding.md R61 and the worked examples of
R80 to R84 and R86 to R90. -/
def Obligations.SpecWordsDecode : Prop :=
  decode 0x11010180#32 = .command (.encI32 true 1 1 true)
    ∧ decode 0x13020180#32 = .command (.encF32 true 2 1 true)
    ∧ decode 0x15010100#32 = .command (.encU8 true 1 1 false)
    ∧ decode 0x17020100#32 = .command (.encU16 true 2 1 false)
    ∧ decode 0x18040100#32 = .command (.encU32 false 4 1 false)
    ∧ decode 0x20010180#32 = .command (.decI32 1 1 true)
    ∧ decode 0x22080280#32 = .command (.decF32 8 2 true)
    ∧ decode 0x22020180#32 = .command (.decF32 2 1 true)
    ∧ decode 0x24010100#32 = .command (.decU8 1 1 false)
    ∧ decode 0x26020100#32 = .command (.decU16 2 1 false)
    ∧ decode 0x28040100#32 = .command (.decU32 4 1 false)

/-! ### Steps, reset and the invariant -/

/-- A step on a host write of CMD stores the word and, when it decodes to a command, executes that command as one
step (10_state.md R18, 20_memory.md R39). -/
def Obligations.StepRunsDecodedCommand : Prop :=
  ∀ (s : State) (rest : List HostOp) (c : Word) (i : Instr),
    s.pending = .regWrite 0x00 4 c :: rest → decode c = .command i →
      step s = exec i { s with pending := rest, cmd := c }

/-- A CMD word that decodes to no command is stored and raises the fault of the first decode check it fails
(10_state.md R18, 30_encoding.md R59, 60_exceptions.md R96). -/
def Obligations.StepOnIllegalWordFaults : Prop :=
  ∀ (s : State) (rest : List HostOp) (c : Word) (k : FaultCode),
    s.pending = .regWrite 0x00 4 c :: rest → decode c = .illegal k →
      ∃ t, step s = .next t ∧ TookFault { s with pending := rest, cmd := c } t k.code

/-- With no host access pending the block waits (10_state.md R14, 70_reset_and_hazards.md R110). That a waiting
step is a step is the model's choice (log entry 1). -/
def Obligations.StepWaitsForTheHost : Prop :=
  ∀ s : State, s.pending = [] → step s = .next s

/-- The registers right after reset (10_state.md R31). -/
def Obligations.ResetRegisterValues : Prop :=
  State.reset.readReg .cmd = 0x00000000#32
    ∧ State.reset.readReg .status = 0x00000000#32
    ∧ State.reset.readReg .scale = 0x3F800000#32
    ∧ State.reset.readReg .vin = 0x00000000#32
    ∧ State.reset.readReg .offset = 0x00000000#32
    ∧ State.reset.readReg .vout = 0x00000000#32
    ∧ State.reset.readReg .nbytes = 0x00000000#32

/-- The reset input gives every register its reset value, executes no command, and leaves each PBUF byte
unspecified (10_state.md R31; 70_reset_and_hazards.md R109, R111). That every byte becomes a free value of a new
epoch, and that the host's own traffic is kept, is the model's choice (log entry 4). -/
def Obligations.ResetInputSetsRegisters : Prop :=
  ∀ (s : State) (rest : List HostOp), s.pending = .reset :: rest →
    ∃ t, step s = .next t
      ∧ (∀ r : Reg, t.readReg r = if r = .scale then 0x3F800000#32 else 0x00000000#32)
      ∧ (∀ a, t.pbufByte a = Config.pbufFree (s.epoch + 1) a)
      ∧ t.bufTop = s.bufTop ∧ t.pending = rest ∧ t.returned = s.returned

/-- The reset state is legal (10_state.md R19, R25, R27, R31). -/
def Obligations.ResetStateIsLegal : Prop := State.reset.Inv

/-- Every step keeps a state legal: PBUF in canonical form and within its capacity, FCAUSE legal for FAULT, NBYTES
at most 4, VOUT zero while VALID is 0 (10_state.md R19, R24, R25, R27). -/
def Obligations.StepKeepsStateLegal : Prop :=
  ∀ s t : State, s.Inv → step s = .next t → t.Inv

/-- A step answers a next state exactly when the host's next access, if it has one, is one the model admits
(10_state.md R17, R27; 60_exceptions.md R99). Two parts are the model's choice, not the spec's: an access past the
window or past BUF_CAP stops (log entry 5), and a state with nothing pending answers (log entry 1). -/
def Obligations.StepCompletesIffAdmitted : Prop :=
  ∀ s : State, (∃ t, step s = .next t) ↔ ∀ (op : HostOp) (rest : List HostOp), s.pending = op :: rest → op.admitted s = true

/-! ### Encode commands -/

/-- ENC.I32 writes the low w bytes of VIN, or the sentinel when V = 0 (41_encode.md R79, R80). -/
def Obligations.EncI32Result : Prop :=
  ∀ (v sg : Bool) (tb vc w : Nat) (s : State), Schema tb vc w → s.cursor + w ≤ s.bufCap →
    EncCompletes (.encI32 v tb vc sg) s w
      (if v then s.vin else if sg then 0x7F7F7F7F#32 else 0xFFFFFFFF#32)

/-- ENC.F32 writes the low w bytes of Fix(VIN, SCALE, SG), or the sentinel when V = 0; a NaN in VIN stops only the
valid form (41_encode.md R79, R81). -/
def Obligations.EncF32Result : Prop :=
  ∀ (v sg : Bool) (tb vc w : Nat) (s : State), Schema tb vc w → s.cursor + w ≤ s.bufCap →
    s.ScaleLegal → (v = true → isNaN s.vin = false) →
    EncCompletes (.encF32 v tb vc sg) s w
      (if v then fix s.vin s.scale sg else if sg then 0x7F7F7F7F#32 else 0xFFFFFFFF#32)

/-- ENC.U8 writes VIN[7:0] zero-extended, or the sentinel when V = 0 (41_encode.md R79, R82). -/
def Obligations.EncU8Result : Prop :=
  ∀ (v sg : Bool) (tb vc w : Nat) (s : State), Schema tb vc w → s.cursor + w ≤ s.bufCap →
    EncCompletes (.encU8 v tb vc sg) s w
      (if v then BitVec.ofNat 32 (s.vin.toNat % 2 ^ 8) else if sg then 0x7F7F7F7F#32 else 0xFFFFFFFF#32)

/-- ENC.U16 writes VIN[15:0] zero-extended, or the sentinel when V = 0 (41_encode.md R79, R83). -/
def Obligations.EncU16Result : Prop :=
  ∀ (v sg : Bool) (tb vc w : Nat) (s : State), Schema tb vc w → s.cursor + w ≤ s.bufCap →
    EncCompletes (.encU16 v tb vc sg) s w
      (if v then BitVec.ofNat 32 (s.vin.toNat % 2 ^ 16) else if sg then 0x7F7F7F7F#32 else 0xFFFFFFFF#32)

/-- ENC.U32 writes the low w bytes of VIN, or the sentinel when V = 0 (41_encode.md R79, R84). -/
def Obligations.EncU32Result : Prop :=
  ∀ (v sg : Bool) (tb vc w : Nat) (s : State), Schema tb vc w → s.cursor + w ≤ s.bufCap →
    EncCompletes (.encU32 v tb vc sg) s w
      (if v then s.vin else if sg then 0x7F7F7F7F#32 else 0xFFFFFFFF#32)

/-! ### Decode commands -/

/-- DEC.I32 reads a field that is not the sentinel as its sign- or zero-extended integer, and the sentinel as an
invalid zero (42_decode.md R85, R86). -/
def Obligations.DecI32Result : Prop :=
  ∀ (sg : Bool) (tb vc w : Nat) (s : State) (u : BitVec (8 * w)), Schema tb vc w → s.cursor + w ≤ s.bufCap →
    s.FieldIs w u →
    (s.ReadsSentinel w sg → DecCompletes (.decI32 tb vc sg) s w false 0#32)
      ∧ (¬ s.ReadsSentinel w sg →
          DecCompletes (.decI32 tb vc sg) s w true (BitVec.ofInt 32 (if sg then u.toInt else u.toNat)))

/-- DEC.F32 divides the field's integer by SCALE, exactly, and rounds once to binary32 (42_decode.md R85, R87;
40_datapath.md R75). -/
def Obligations.DecF32Result : Prop :=
  ∀ (sg : Bool) (tb vc w : Nat) (s : State) (u : BitVec (8 * w)), Schema tb vc w → s.cursor + w ≤ s.bufCap →
    s.FieldIs w u → s.ScaleLegal →
    (s.ReadsSentinel w sg → DecCompletes (.decF32 tb vc sg) s w false 0#32)
      ∧ (¬ s.ReadsSentinel w sg →
          DecCompletes (.decF32 tb vc sg) s w true
            (rneF32 (((if sg then u.toInt else (u.toNat : Int)) : ℚ) / f32val s.scale)))

/-- DEC.U8 of a 1-byte field gives the low 8 bits of its value, zero-extended (42_decode.md R85, R88). -/
def Obligations.DecU8Result : Prop :=
  ∀ (sg : Bool) (tb vc : Nat) (s : State) (u : BitVec (8 * 1)), Schema tb vc 1 → s.cursor + 1 ≤ s.bufCap →
    s.FieldIs 1 u →
    (s.ReadsSentinel 1 sg → DecCompletes (.decU8 tb vc sg) s 1 false 0#32)
      ∧ (¬ s.ReadsSentinel 1 sg → DecCompletes (.decU8 tb vc sg) s 1 true (BitVec.ofNat 32 u.toNat))

/-- DEC.U16 of a 1- or 2-byte field gives the low 16 bits of its sign- or zero-extended value, zero-extended
(42_decode.md R85, R89). -/
def Obligations.DecU16Result : Prop :=
  ∀ (sg : Bool) (tb vc w : Nat) (s : State) (u : BitVec (8 * w)), Schema tb vc w → w ≤ 2 →
    s.cursor + w ≤ s.bufCap → s.FieldIs w u →
    (s.ReadsSentinel w sg → DecCompletes (.decU16 tb vc sg) s w false 0#32)
      ∧ (¬ s.ReadsSentinel w sg →
          DecCompletes (.decU16 tb vc sg) s w true
            (BitVec.ofInt 32 ((if sg then u.toInt else (u.toNat : Int)) % 2 ^ 16)))

/-- DEC.U32 gives the 32-bit pattern of the sign- or zero-extended field (42_decode.md R85, R90). -/
def Obligations.DecU32Result : Prop :=
  ∀ (sg : Bool) (tb vc w : Nat) (s : State) (u : BitVec (8 * w)), Schema tb vc w → s.cursor + w ≤ s.bufCap →
    s.FieldIs w u →
    (s.ReadsSentinel w sg → DecCompletes (.decU32 tb vc sg) s w false 0#32)
      ∧ (¬ s.ReadsSentinel w sg →
          DecCompletes (.decU32 tb vc sg) s w true (if sg then u.signExtend 32 else u.setWidth 32))

/-! ### Faults -/

/-- The fault codes (60_exceptions.md R93). -/
def Obligations.FaultCodeNumbers : Prop :=
  FaultCode.fOp.code = 1#4 ∧ FaultCode.fType.code = 2#4 ∧ FaultCode.fRsv.code = 3#4 ∧ FaultCode.fSchema.code = 4#4
    ∧ FaultCode.fRange.code = 5#4 ∧ FaultCode.fWidth.code = 6#4 ∧ FaultCode.fScale.code = 7#4
    ∧ FaultCode.fNan.code = 8#4

/-- Every command that decodes raises the first of F_SCHEMA, F_RANGE, F_WIDTH, F_SCALE and F_NAN that applies, with
the effect of a fault: NBYTES 0, FAULT 1, FCAUSE the first cause, nothing else (60_exceptions.md R94 to R97). -/
def Obligations.CommandFaultsInOrder : Prop :=
  ∀ (i : Instr) (s : State),
    ((∀ w, ¬ Schema i.totalBytes i.valueCount w) → Faults i s 4#4)
      ∧ ∀ w, Schema i.totalBytes i.valueCount w →
        (s.bufCap < s.cursor + w → Faults i s 5#4)
          ∧ (s.cursor + w ≤ s.bufCap →
              (i.isEnc = false → i.valueType.width < 8 * w → Faults i s 6#4)
                ∧ (i.valueType = .f32 → ¬ s.ScaleLegal → Faults i s 7#4)
                ∧ (i.valueType = .f32 → s.ScaleLegal → i.isEnc = true → i.validFlag = true → isNaN s.vin = true →
                    Faults i s 8#4))

/-- A CMD write ends with NBYTES = 0 exactly when it faulted; a command that completes leaves FAULT and FCAUSE as
they were, even while FAULT is 1 (10_state.md R25; 60_exceptions.md R95, R96, R99). -/
def Obligations.NbytesZeroExactlyOnFault : Prop :=
  ∀ (s t : State) (rest : List HostOp) (c : Word),
    s.pending = .regWrite 0x00 4 c :: rest → step s = .next t →
      (t.nbytes = 0#3 → ∃ code : BitVec 4, 1#4 ≤ code ∧ code ≤ 8#4
          ∧ TookFault { s with pending := rest, cmd := c } t code)
        ∧ (t.nbytes ≠ 0#3 → t.fault = s.fault ∧ t.fcause = s.fcause)

/-- "Only the clearing write of 10_state.md rule R20 and reset ... set FAULT and FCAUSE to 0", and while FAULT stays
1, FCAUSE is unchanged (60_exceptions.md R97). -/
def Obligations.FirstCauseKeptUntilCleared : Prop :=
  ∀ (s t : State) (op : HostOp) (rest : List HostOp),
    s.pending = op :: rest → step s = .next t → s.fault = true →
      (t.fault = true ∧ t.fcause = s.fcause)
        ∨ (t.fault = false ∧ t.fcause = 0#4
            ∧ (op = .reset ∨ ∃ v : Word, op = .regWrite 0x04 4 v ∧ v.getLsbD 1 = true))

/-! ### What changes what -/

/-- "VOUT and STATUS.VALID change only when a DEC completes" (70_reset_and_hazards.md R114), reset apart. -/
def Obligations.VoutAndValidChangeOnlyByDec : Prop :=
  ∀ (s t : State) (op : HostOp) (rest : List HostOp),
    s.pending = op :: rest → step s = .next t → op ≠ .reset → (t.vout ≠ s.vout ∨ t.valid ≠ s.valid) →
      ∃ (c : Word) (i : Instr),
        op = .regWrite 0x00 4 c ∧ decode c = .command i ∧ i.isEnc = false ∧ t.nbytes ≠ 0#3

/-- No command writes CMD, VIN, SCALE or OFFSET: each changes only by a host write of it, reset apart, and BUF_CAP never
changes (00_scope.md R8; 10_state.md R18, R21 to R23). -/
def Obligations.OperandsChangeOnlyByHost : Prop :=
  ∀ (s t : State) (op : HostOp) (rest : List HostOp),
    s.pending = op :: rest → step s = .next t →
      t.bufTop = s.bufTop
        ∧ (op ≠ .reset →
            (t.scale ≠ s.scale → op = .regWrite 0x08 4 t.scale)
              ∧ (t.vin ≠ s.vin → op = .regWrite 0x0C 4 t.vin)
              ∧ (t.offset ≠ s.offset → ∃ v : Word, op = .regWrite 0x10 4 v ∧ t.offset = v.extractLsb' 0 16)
              ∧ (t.cmd ≠ s.cmd → op = .regWrite 0x00 4 t.cmd))

/-- A PBUF byte changes only by a host write of it or by an ENC whose field holds it, reset apart
(20_memory.md R37, R38). -/
def Obligations.PbufChangesOnlyInTheField : Prop :=
  ∀ (s t : State) (op : HostOp) (rest : List HostOp) (a : Nat),
    s.pending = op :: rest → step s = .next t → op ≠ .reset → t.pbufByte a ≠ s.pbufByte a →
      (∃ b, op = .pbufWrite a b)
        ∨ ∃ (c : Word) (i : Instr) (w : Nat),
            op = .regWrite 0x00 4 c ∧ decode c = .command i ∧ i.isEnc = true
              ∧ Schema i.totalBytes i.valueCount w ∧ s.cursor ≤ a ∧ a < s.cursor + w ∧ s.cursor + w ≤ s.bufCap

/-- "No flag changes the result of any command" (10_state.md R26). -/
def Obligations.FlagsNeverChangeResults : Prop :=
  ∀ (i : Instr) (s t : State) (v f : Bool) (c : BitVec 4), exec i s = .next t →
    ∃ t', exec i { s with valid := v, fault := f, fcause := c } = .next t'
      ∧ t'.vout = t.vout ∧ t'.nbytes = t.nbytes ∧ t'.pbuf = t.pbuf
      ∧ (i.isEnc = false → t.nbytes ≠ 0#3 → t'.valid = t.valid)

/-- "Only ENC.F32 and DEC.F32 read" SCALE: an integer command does the same whatever SCALE holds
(10_state.md R21). -/
def Obligations.IntegerCommandsIgnoreScale : Prop :=
  ∀ (i : Instr) (s t : State) (x : Word), i.valueType ≠ .f32 → exec i s = .next t →
    exec i { s with scale := x } = .next { t with scale := x }

/-- An encode with V = 0 does not examine VIN, and neither does any decode (41_encode.md R79). -/
def Obligations.InvalidEncodeIgnoresVin : Prop :=
  ∀ (i : Instr) (s t : State) (x : Word), i.validFlag = false → exec i s = .next t →
    exec i { s with vin := x } = .next { t with vin := x }

/-- Repeating a command changes nothing (20_memory.md R40). -/
def Obligations.RepeatedCommandChangesNothing : Prop :=
  ∀ (i : Instr) (s t : State), s.pbuf.wf → exec i s = .next t → exec i t = .next t

/-! ### Round trips -/

/-- An encode of an invalid reading decodes invalid, with a zero output, at any pair of value types
(40_datapath.md R78). -/
def Obligations.InvalidRoundTrip : Prop :=
  ∀ (te td : ValueType) (tb vc : Nat) (sg : Bool) (s a b : State),
    exec (encOf te false tb vc sg) s = .next a → a.nbytes ≠ 0#3 →
    exec (decOf td tb vc sg) a = .next b → b.nbytes ≠ 0#3 →
      b.valid = false ∧ b.vout = 0#32 ∧ b.nbytes = a.nbytes

/-- An integer in the range of its field that does not pack to the sentinel comes back unchanged
(40_datapath.md R78). -/
def Obligations.IntegerRoundTrip : Prop :=
  ∀ (tb vc w : Nat) (sg : Bool) (s : State), Schema tb vc w → s.cursor + w ≤ s.bufCap →
    (if sg then -2 ^ (8 * w - 1) ≤ s.vin.toInt ∧ s.vin.toInt ≤ 2 ^ (8 * w - 1) - 1 else s.vin.toNat ≤ 2 ^ (8 * w) - 1) →
    (¬ ∀ k < w, s.vin.extractLsb' (8 * k) 8 = if sg then 0x7F#8 else 0xFF#8) →
    ∃ a b, exec (.encI32 true tb vc sg) s = .next a ∧ exec (.decI32 tb vc sg) a = .next b
      ∧ a.nbytes.toNat = w ∧ b.nbytes.toNat = w ∧ b.valid = true ∧ b.vout = s.vin

/-- A float whose scaled integer n is in the range of its field and does not pack to the sentinel comes back as n
divided by SCALE, rounded once; when nothing was clamped, n divided by SCALE is within half a quantum of the input
(40_datapath.md R78). -/
def Obligations.FloatRoundTrip : Prop :=
  ∀ (tb vc w : Nat) (sg : Bool) (s : State), Schema tb vc w → s.cursor + w ≤ s.bufCap → s.ScaleLegal →
    isNaN s.vin = false →
    let n := fixInt s.vin s.scale sg
    (if sg then -2 ^ (8 * w - 1) ≤ n ∧ n ≤ 2 ^ (8 * w - 1) - 1 else 0 ≤ n ∧ n ≤ 2 ^ (8 * w) - 1) →
    (¬ ∀ k < w, (BitVec.ofInt 32 n).extractLsb' (8 * k) 8 = if sg then 0x7F#8 else 0xFF#8) →
    ∃ a b, exec (.encF32 true tb vc sg) s = .next a ∧ exec (.decF32 tb vc sg) a = .next b
      ∧ a.nbytes.toNat = w ∧ b.nbytes.toNat = w ∧ b.valid = true ∧ b.vout = rneF32 ((n : ℚ) / f32val s.scale)
      ∧ (isInf s.vin = false → n = rneInt (f32val s.vin * f32val s.scale) →
          |(n : ℚ) / f32val s.scale - f32val s.vin| ≤ 1 / (2 * f32val s.scale))

/-- Fields at disjoint offsets do not disturb each other: a decode of one gives the same whether or not the other
has been encoded in between (40_datapath.md R78). -/
def Obligations.DisjointFieldsDoNotInterfere : Prop :=
  ∀ (i j : Instr) (s t a b : State) (p q : BitVec 16) (wi wj : Nat),
    i.isEnc = false → j.isEnc = true →
    Schema i.totalBytes i.valueCount wi → Schema j.totalBytes j.valueCount wj →
    (p.toNat + wi ≤ q.toNat ∨ q.toNat + wj ≤ p.toNat) →
    exec j { s with offset := q } = .next t →
    exec i { s with offset := p } = .next a → exec i { t with offset := p } = .next b →
      b.vout = a.vout ∧ b.valid = a.valid ∧ b.nbytes = a.nbytes

/-- A valid value of any type whose packed bytes are the sentinel is written as it is, and every decode of the same
schema whose output type is wide enough for the field reads it as invalid (40_datapath.md R77). -/
def Obligations.CollidingValueDecodesInvalid : Prop :=
  ∀ (te td : ValueType) (tb vc w : Nat) (sg : Bool) (s : State), Schema tb vc w → s.cursor + w ≤ s.bufCap →
    8 * w ≤ td.width → (te = .f32 ∨ td = .f32 → s.ScaleLegal) → (te = .f32 → isNaN s.vin = false) →
    let x : Word := match te with
      | .i32 => s.vin
      | .f32 => fix s.vin s.scale sg
      | .u8 => BitVec.ofNat 32 (s.vin.toNat % 2 ^ 8)
      | .u16 => BitVec.ofNat 32 (s.vin.toNat % 2 ^ 16)
      | .u32 => s.vin
    (∀ k < w, x.extractLsb' (8 * k) 8 = if sg then 0x7F#8 else 0xFF#8) →
      EncCompletes (encOf te true tb vc sg) s w x
        ∧ ∀ a, exec (encOf te true tb vc sg) s = .next a → DecCompletes (decOf td tb vc sg) a w false 0#32

/-! ### The datapath units -/

/-- The value of a finite binary32 pattern (00_scope.md R11). -/
def Obligations.F32ValueOfPattern : Prop :=
  ∀ b : Word, f32Exp b ≠ 255 →
    f32val b = (if b.getLsbD 31 then -1 else 1)
      * (if b.toNat / 2 ^ 23 % 256 = 0 then ((b.toNat % 2 ^ 23 : Nat) : ℚ) * 2 ^ (-149 : ℤ)
          else ((2 ^ 23 + b.toNat % 2 ^ 23 : Nat) : ℚ) * 2 ^ (((b.toNat / 2 ^ 23 % 256 : Nat) : ℤ) - 150))

/-- NaNs, infinities and legal scale factors as ranges of patterns: a legal scale lies strictly between +0.0 and
+infinity (40_datapath.md R71). -/
def Obligations.FloatClasses : Prop :=
  ∀ b : Word,
    (isNaN b = true ↔ 0x7F800000 < b.toNat % 2 ^ 31)
      ∧ (isInf b = true ↔ b.toNat % 2 ^ 31 = 0x7F800000)
      ∧ (scaleOk b = true ↔ 0 < b.toNat ∧ b.toNat < 0x7F800000)

/-- `RNE_int` is the nearest integer, and the even one of two equally near (40_datapath.md R73). -/
def Obligations.IntegerRoundingIsNearestEven : Prop :=
  ∀ (q : ℚ) (m : ℤ),
    |q - rneInt q| ≤ |q - m| ∧ (m ≠ rneInt q → |q - m| = |q - rneInt q| → rneInt q % 2 = 0)

/-- `RNE_f32` is +0.0 for 0, an infinity from 2^128 - 2^103 on, and otherwise a finite pattern whose value is
nearest, with the even fraction of two equally near values (40_datapath.md R74). -/
def Obligations.Binary32RoundingIsNearestEven : Prop :=
  ∀ q : ℚ,
    (q = 0 → rneF32 q = 0x00000000#32)
      ∧ (2 ^ 128 - 2 ^ 103 ≤ |q| → (0 < q → rneF32 q = 0x7F800000#32) ∧ (q < 0 → rneF32 q = 0xFF800000#32))
      ∧ (q ≠ 0 → |q| < 2 ^ 128 - 2 ^ 103 →
          f32Exp (rneF32 q) ≠ 255
            ∧ ∀ b : Word, f32Exp b ≠ 255 →
                |q - f32val (rneF32 q)| ≤ |q - f32val b|
                  ∧ (f32val b ≠ f32val (rneF32 q) → |q - f32val b| = |q - f32val (rneF32 q)| →
                      f32Frac (rneF32 q) % 2 = 0))

/-- `Fix`: an infinite input gives the bound on its side; a finite one gives the exact product, rounded once to the
nearest integer, ties to even, and then clamped to the 32-bit range of the signedness (40_datapath.md R69, R72). -/
def Obligations.FixRoundsTheExactProductOnce : Prop :=
  ∀ (b s : Word) (sg : Bool), isNaN b = false → scaleOk s = true →
    let lo : ℤ := if sg then -2 ^ 31 else 0
    let hi : ℤ := if sg then 2 ^ 31 - 1 else 2 ^ 32 - 1
    (isInf b = true → fix b s sg = BitVec.ofInt 32 (if b.getLsbD 31 then lo else hi))
      ∧ (isInf b = false → ∃ n : ℤ,
          (∀ m : ℤ, |f32val b * f32val s - n| ≤ |f32val b * f32val s - m|)
            ∧ (|f32val b * f32val s - n| = 1 / 2 → n % 2 = 0)
            ∧ fix b s sg = BitVec.ofInt 32 (min hi (max lo n)))

/-- `Unfix`: zero gives +0.0, no other quotient rounds to a zero, and the quotient of a raw integer overflows only
where SCALE is at most 2^-96 (40_datapath.md R75 says below 2^-96; at 2^-96 itself the quotient of 2^32 - 2
overflows by R74; that the model follows the formula is DEDUCED, log entry 8). -/
def Obligations.UnfixZeroAndOverflow : Prop :=
  ∀ (r : ℤ) (s : Word), scaleOk s = true →
    unfix 0 s = 0x00000000#32
      ∧ (r ≠ 0 → unfix r s ≠ 0x00000000#32 ∧ unfix r s ≠ 0x80000000#32)
      ∧ (|r| < 2 ^ 32 → isInf (unfix r s) = true → f32val s ≤ 2 ^ (-96 : ℤ))

/-- The sentinel detector compares all 8w bits: it fires exactly when every byte of the field is the sentinel byte
(40_datapath.md R64, R65). -/
def Obligations.SentinelIsTheRepeatedByte : Prop :=
  ∀ (w : Nat) (u : BitVec (8 * w)) (sg : Bool),
    isSentinel w u sg = true ↔ ∀ k < w, u.extractLsb' (8 * k) 8 = if sg then 0x7F#8 else 0xFF#8

/-- Reassembly: the raw integer lies in the range of its width and signedness, and raw32 is it mod 2^32
(40_datapath.md R68). -/
def Obligations.ReassemblyRange : Prop :=
  ∀ (w : Nat) (u : BitVec (8 * w)) (sg : Bool), 1 ≤ w → w ≤ 4 →
    (if sg then -2 ^ (8 * w - 1) ≤ raw w u sg ∧ raw w u sg ≤ 2 ^ (8 * w - 1) - 1
      else 0 ≤ raw w u sg ∧ raw w u sg ≤ 2 ^ (8 * w) - 1)
      ∧ raw w u sg % 2 ^ (8 * w) = u.toNat
      ∧ ((raw32 w u sg).toNat : ℤ) = raw w u sg % 2 ^ 32

/-! ### The host port -/

/-- What a host read of each offset of the window returns; it changes nothing else (10_state.md R16, R17, R19,
R23, R25). -/
def Obligations.HostReadsRegisters : Prop :=
  ∀ (s : State) (rest : List HostOp) (off : Nat),
    s.pending = .regRead off 4 :: rest → off < 64 → off % 4 = 0 →
      ∃ w : Word, step s = .next { s with pending := rest, returned := .word w :: s.returned }
        ∧ (off = 0x00 → w = s.cmd)
        ∧ (off = 0x04 → w.toNat = s.valid.toNat + 2 * s.fault.toNat + 16 * s.fcause.toNat)
        ∧ (off = 0x08 → w = s.scale)
        ∧ (off = 0x0C → w = s.vin)
        ∧ (off = 0x10 → w.toNat = s.offset.toNat)
        ∧ (off = 0x14 → w = s.vout)
        ∧ (off = 0x18 → w.toNat = s.nbytes.toNat)
        ∧ (0x1C ≤ off → w = 0#32)

/-- What a host write of each offset but CMD's does: STATUS clears FAULT and FCAUSE together when bit 1 is set and
else does nothing, OFFSET keeps 16 bits, read-only and reserved offsets ignore the write (10_state.md R17, R20 to
R23). -/
def Obligations.HostWritesRegisters : Prop :=
  ∀ (s : State) (rest : List HostOp) (off : Nat) (v : Word),
    s.pending = .regWrite off 4 v :: rest → off < 64 → off % 4 = 0 →
      (off = 0x04 → step s = .next (if v.getLsbD 1 then { s with pending := rest, fault := false, fcause := 0#4 }
          else { s with pending := rest }))
        ∧ (off = 0x08 → step s = .next { s with pending := rest, scale := v })
        ∧ (off = 0x0C → step s = .next { s with pending := rest, vin := v })
        ∧ (off = 0x10 → step s = .next { s with pending := rest, offset := v.extractLsb' 0 16 })
        ∧ (0x14 ≤ off → step s = .next { s with pending := rest })

/-- Register accesses the window does not admit stop: another size or an offset that is no multiple of 4 is refused
(10_state.md R17), and an offset past the 64-byte window faults (10_state.md R16). Two parts are the model's choice,
not the spec's: that an offset past the window faults, before size and alignment are looked at (log entry 5), and
that size is checked before alignment, so an access wrong in both is refused for its size (log entry 6). -/
def Obligations.RegisterAccessesNotAdmitted : Prop :=
  ∀ (s : State) (rest : List HostOp) (off size : Nat) (op : HostOp),
    (op = .regRead off size ∨ ∃ v, op = .regWrite off size v) → s.pending = op :: rest →
      (64 ≤ off → step s = .fault .outsideWindow)
        ∧ (off < 64 → size ≠ 4 → step s = .refused .registerSize)
        ∧ (off < 64 → size = 4 → off % 4 ≠ 0 → step s = .refused .registerAlignment)

/-- The host writes and reads PBUF byte by byte, at every offset it has and no other (20_memory.md R34, R46; that an
access past the capacity faults is the model's choice, log entry 5). -/
def Obligations.HostAccessesPbuf : Prop :=
  ∀ (s : State) (rest : List HostOp) (off : Nat) (b : Byte),
    (s.pending = .pbufWrite off b :: rest → off < s.bufCap →
        ∃ t, step s = .next t ∧ t.pbufByte off = b ∧ (∀ a, a ≠ off → t.pbufByte a = s.pbufByte a)
          ∧ { s with pending := rest, pbuf := t.pbuf } = t)
      ∧ (s.pending = .pbufRead off :: rest → off < s.bufCap →
          step s = .next { s with pending := rest, returned := .byte (s.pbufByte off) :: s.returned })
      ∧ ((s.pending = .pbufWrite off b :: rest ∨ s.pending = .pbufRead off :: rest) → s.bufCap ≤ off →
          step s = .fault .outsidePbuf)

/-- The host's cursor step ADV moves OFFSET on by NBYTES and leaves every other register and PBUF alone, so after a
fault it stays put (20_memory.md R44, 30_encoding.md R62, 70_reset_and_hazards.md R115). -/
def Obligations.AdvanceMovesCursorByNbytes : Prop :=
  ∀ s : State,
    ∃ t, Sys2Proof.core.run 3 { s with pending := advance s } = .next t
      ∧ t.offset.toNat = (s.offset.toNat + s.nbytes.toNat) % 2 ^ 16
      ∧ { s with offset := t.offset, pending := [], returned := t.returned } = t
end

