-- ==== Sys2Proof/Laws/Memory.lean ====
section
/-! SUPPORT. The laws of PBUF as a memory: a read after a write, what a write leaves alone, the canonical form, and
that equal memories are equal data. -/

namespace Sys2Proof.Machine.Memory

@[simp] theorem unlisted_eq : unlisted = none := rfl

@[simp] theorem lookup_nil (a : Nat) : lookup [] a = none := rfl

@[simp] theorem lookup_write_same (m : Memory) (a : Nat) (v : Byte) : (m.write a v).lookup a = some v := by
  induction m with
  | nil => simp [write, lookup]
  | cons c rest ih =>
    obtain ⟨k, b⟩ := c
    simp only [write]
    split
    · simp [lookup]
    · split
      · simp [lookup]
      · have : k ≠ a := fun h => by simp_all
        simpa [lookup, this] using ih

theorem lookup_write_other (m : Memory) {a x : Nat} (v : Byte) (h : x ≠ a) :
    (m.write a v).lookup x = m.lookup x := by
  induction m with
  | nil => simp [write, lookup, h.symm]
  | cons c rest ih =>
    obtain ⟨k, b⟩ := c
    simp only [write]
    split
    · simp [lookup, h.symm]
    · split
      · rename_i hk
        subst hk
        simp [lookup, h.symm]
      · simp only [lookup, ih]

/-- A write of bytes leaves every offset outside them alone. -/
theorem lookup_writeBytes_outside (bs : List Byte) (m : Memory) {a x : Nat} (h : x < a ∨ a + bs.length ≤ x) :
    (m.writeBytes a bs).lookup x = m.lookup x := by
  induction bs generalizing m a with
  | nil => rfl
  | cons b bs ih =>
    simp only [List.length_cons] at h
    rw [writeBytes, ih (m.write a b) (by omega), lookup_write_other m b (by omega)]

/-- A read of a written offset gives the byte written there. -/
theorem lookup_writeBytes_inside (bs : List Byte) (m : Memory) (a : Nat) {k : Nat} (h : k < bs.length) :
    (m.writeBytes a bs).lookup (a + k) = some bs[k] := by
  induction bs generalizing m a k with
  | nil => simp at h
  | cons b bs ih =>
    cases k with
    | zero => simp [writeBytes, lookup_writeBytes_outside bs _ (a := a + 1) (x := a) (by omega)]
    | succ k =>
      have := ih (m.write a b) (a + 1) (k := k) (by simpa using h)
      simpa [writeBytes, Nat.add_assoc, Nat.add_comm 1 k] using this

theorem mem_write {m : Memory} {a : Nat} {v : Byte} {c : Host.Cell} (h : c ∈ m.write a v) :
    c = (a, v) ∨ c ∈ m := by
  induction m with
  | nil => simpa [write] using h
  | cons d rest ih =>
    obtain ⟨k, b⟩ := d
    simp only [write] at h
    split at h
    · simpa using h
    · split at h
      · rcases List.mem_cons.mp h with h | h
        · exact .inl h
        · exact .inr (List.mem_cons_of_mem _ h)
      · rcases List.mem_cons.mp h with h | h
        · exact .inr (h ▸ List.mem_cons_self)
        · exact (ih h).imp id (List.mem_cons_of_mem _)

/-- Every entry of a written memory is an old one or lies at one of the written offsets. -/
theorem mem_writeBytes {bs : List Byte} {m : Memory} {a : Nat} {c : Host.Cell} (h : c ∈ m.writeBytes a bs) :
    (a ≤ c.1 ∧ c.1 < a + bs.length) ∨ c ∈ m := by
  induction bs generalizing m a with
  | nil => exact .inr h
  | cons b bs ih =>
    simp only [List.length_cons]
    rcases ih h with h | h
    · exact .inl (by omega)
    · rcases mem_write h with h | h
      · exact .inl (by simp [h])
      · exact .inr h

/-- With no byte for an unlisted offset, the canonical form is that the offsets rise. -/
theorem wf_iff (m : Memory) : m.wf ↔ m.Pairwise (fun x y => x.1 < y.1) := by simp [wf]

/-- A write keeps the canonical form. -/
theorem wf_write {m : Memory} (h : m.wf) (a : Nat) (v : Byte) : (m.write a v).wf := by
  rw [wf_iff] at h ⊢
  induction m with
  | nil => simp [write]
  | cons c rest ih =>
    obtain ⟨k, b⟩ := c
    rw [List.pairwise_cons] at h
    simp only [write]
    split
    · rename_i hk
      refine List.pairwise_cons.mpr ⟨fun d hd => ?_, List.pairwise_cons.mpr h⟩
      rcases List.mem_cons.mp hd with rfl | hd
      · exact hk
      · exact Nat.lt_trans hk (h.1 d hd)
    · split
      · rename_i hk
        exact List.pairwise_cons.mpr ⟨fun d hd => hk ▸ h.1 d hd, h.2⟩
      · refine List.pairwise_cons.mpr ⟨fun d hd => ?_, ih h.2⟩
        rcases mem_write hd with rfl | hd
        · show k < a
          omega
        · exact h.1 d hd

/-- A write of bytes keeps the canonical form. -/
theorem wf_writeBytes {m : Memory} (h : m.wf) (a : Nat) (bs : List Byte) : (m.writeBytes a bs).wf := by
  induction bs generalizing m a with
  | nil => exact h
  | cons b bs ih => exact ih (wf_write h a b) (a + 1)

/-- An offset below every entry is unlisted. -/
theorem lookup_eq_none_of_lt {m : Memory} {a : Nat} (h : ∀ c ∈ m, a < c.1) : m.lookup a = none := by
  induction m with
  | nil => rfl
  | cons c rest ih =>
    have hc := h c List.mem_cons_self
    simp [lookup, Nat.ne_of_gt hc, ih fun d hd => h d (List.mem_cons_of_mem _ hd)]

/-- Equal memories are equal data: two canonical memories that read alike are the same list. -/
theorem ext {m n : Memory} (hm : m.wf) (hn : n.wf) (h : ∀ a, m.lookup a = n.lookup a) : m = n := by
  rw [wf_iff] at hm hn
  induction m generalizing n with
  | nil =>
    cases n with
    | nil => rfl
    | cons d rest => simpa [lookup] using h d.1
  | cons c rest ih =>
    obtain ⟨k, b⟩ := c
    cases n with
    | nil => simpa [lookup] using h k
    | cons d rest' =>
      obtain ⟨k', b'⟩ := d
      rw [List.pairwise_cons] at hm hn
      have hk : k = k' := by
        rcases Nat.lt_trichotomy k k' with hlt | heq | hlt
        · have := h k
          rw [lookup_eq_none_of_lt (m := (k', b') :: rest')] at this
          · simp [lookup] at this
          · intro c hc
            rcases List.mem_cons.mp hc with rfl | hc
            · exact hlt
            · exact Nat.lt_trans hlt (hn.1 c hc)
        · exact heq
        · have := h k'
          rw [lookup_eq_none_of_lt (m := (k, b) :: rest)] at this
          · simp [lookup] at this
          · intro c hc
            rcases List.mem_cons.mp hc with rfl | hc
            · exact hlt
            · exact Nat.lt_trans hlt (hm.1 c hc)
      subst hk
      have hb : b = b' := by simpa [lookup] using h k
      subst hb
      congr 1
      refine ih hm.2 hn.2 fun a => ?_
      by_cases ha : k = a
      · subst ha
        rw [lookup_eq_none_of_lt hm.1, lookup_eq_none_of_lt hn.1]
      · simpa [lookup, ha] using h a

end Sys2Proof.Machine.Memory
end

