-- ==== Sys2Proof/Laws/State.lean ====
section
/-! SUPPORT. What each named update of State does to each field, one lemma a field, all true by definition: no
later proof unfolds a record update. -/

namespace Sys2Proof.Machine.State

variable (s : State)


/-! `raise` -/

@[simp] theorem raise_cmd (c : FaultCode) : (s.raise c).cmd = s.cmd := rfl
@[simp] theorem raise_valid (c : FaultCode) : (s.raise c).valid = s.valid := rfl
@[simp] theorem raise_fault (c : FaultCode) : (s.raise c).fault = true := rfl
@[simp] theorem raise_fcause (c : FaultCode) : (s.raise c).fcause = recordedCause s.fault s.fcause c := rfl
@[simp] theorem raise_scale (c : FaultCode) : (s.raise c).scale = s.scale := rfl
@[simp] theorem raise_vin (c : FaultCode) : (s.raise c).vin = s.vin := rfl
@[simp] theorem raise_offset (c : FaultCode) : (s.raise c).offset = s.offset := rfl
@[simp] theorem raise_vout (c : FaultCode) : (s.raise c).vout = s.vout := rfl
@[simp] theorem raise_nbytes (c : FaultCode) : (s.raise c).nbytes = 0#3 := rfl
@[simp] theorem raise_pbuf (c : FaultCode) : (s.raise c).pbuf = s.pbuf := rfl
@[simp] theorem raise_bufTop (c : FaultCode) : (s.raise c).bufTop = s.bufTop := rfl
@[simp] theorem raise_epoch (c : FaultCode) : (s.raise c).epoch = s.epoch := rfl
@[simp] theorem raise_pending (c : FaultCode) : (s.raise c).pending = s.pending := rfl
@[simp] theorem raise_returned (c : FaultCode) : (s.raise c).returned = s.returned := rfl

/-! `clearFault` -/

@[simp] theorem clearFault_cmd : (s.clearFault).cmd = s.cmd := rfl
@[simp] theorem clearFault_valid : (s.clearFault).valid = s.valid := rfl
@[simp] theorem clearFault_fault : (s.clearFault).fault = false := rfl
@[simp] theorem clearFault_fcause : (s.clearFault).fcause = 0#4 := rfl
@[simp] theorem clearFault_scale : (s.clearFault).scale = s.scale := rfl
@[simp] theorem clearFault_vin : (s.clearFault).vin = s.vin := rfl
@[simp] theorem clearFault_offset : (s.clearFault).offset = s.offset := rfl
@[simp] theorem clearFault_vout : (s.clearFault).vout = s.vout := rfl
@[simp] theorem clearFault_nbytes : (s.clearFault).nbytes = s.nbytes := rfl
@[simp] theorem clearFault_pbuf : (s.clearFault).pbuf = s.pbuf := rfl
@[simp] theorem clearFault_bufTop : (s.clearFault).bufTop = s.bufTop := rfl
@[simp] theorem clearFault_epoch : (s.clearFault).epoch = s.epoch := rfl
@[simp] theorem clearFault_pending : (s.clearFault).pending = s.pending := rfl
@[simp] theorem clearFault_returned : (s.clearFault).returned = s.returned := rfl

/-! `memWrite` -/

@[simp] theorem memWrite_cmd (a n : Nat) (v : BitVec (8 * n)) : (s.memWrite a n v).cmd = s.cmd := rfl
@[simp] theorem memWrite_valid (a n : Nat) (v : BitVec (8 * n)) : (s.memWrite a n v).valid = s.valid := rfl
@[simp] theorem memWrite_fault (a n : Nat) (v : BitVec (8 * n)) : (s.memWrite a n v).fault = s.fault := rfl
@[simp] theorem memWrite_fcause (a n : Nat) (v : BitVec (8 * n)) : (s.memWrite a n v).fcause = s.fcause := rfl
@[simp] theorem memWrite_scale (a n : Nat) (v : BitVec (8 * n)) : (s.memWrite a n v).scale = s.scale := rfl
@[simp] theorem memWrite_vin (a n : Nat) (v : BitVec (8 * n)) : (s.memWrite a n v).vin = s.vin := rfl
@[simp] theorem memWrite_offset (a n : Nat) (v : BitVec (8 * n)) : (s.memWrite a n v).offset = s.offset := rfl
@[simp] theorem memWrite_vout (a n : Nat) (v : BitVec (8 * n)) : (s.memWrite a n v).vout = s.vout := rfl
@[simp] theorem memWrite_nbytes (a n : Nat) (v : BitVec (8 * n)) : (s.memWrite a n v).nbytes = s.nbytes := rfl
@[simp] theorem memWrite_pbuf (a n : Nat) (v : BitVec (8 * n)) : (s.memWrite a n v).pbuf = s.pbuf.writeBytes a (beBytes n v) := rfl
@[simp] theorem memWrite_bufTop (a n : Nat) (v : BitVec (8 * n)) : (s.memWrite a n v).bufTop = s.bufTop := rfl
@[simp] theorem memWrite_epoch (a n : Nat) (v : BitVec (8 * n)) : (s.memWrite a n v).epoch = s.epoch := rfl
@[simp] theorem memWrite_pending (a n : Nat) (v : BitVec (8 * n)) : (s.memWrite a n v).pending = s.pending := rfl
@[simp] theorem memWrite_returned (a n : Nat) (v : BitVec (8 * n)) : (s.memWrite a n v).returned = s.returned := rfl

/-! `finishEnc` -/

@[simp] theorem finishEnc_cmd (w : Nat) (x : Word) : (s.finishEnc w x).cmd = s.cmd := rfl
@[simp] theorem finishEnc_valid (w : Nat) (x : Word) : (s.finishEnc w x).valid = s.valid := rfl
@[simp] theorem finishEnc_fault (w : Nat) (x : Word) : (s.finishEnc w x).fault = s.fault := rfl
@[simp] theorem finishEnc_fcause (w : Nat) (x : Word) : (s.finishEnc w x).fcause = s.fcause := rfl
@[simp] theorem finishEnc_scale (w : Nat) (x : Word) : (s.finishEnc w x).scale = s.scale := rfl
@[simp] theorem finishEnc_vin (w : Nat) (x : Word) : (s.finishEnc w x).vin = s.vin := rfl
@[simp] theorem finishEnc_offset (w : Nat) (x : Word) : (s.finishEnc w x).offset = s.offset := rfl
@[simp] theorem finishEnc_vout (w : Nat) (x : Word) : (s.finishEnc w x).vout = s.vout := rfl
@[simp] theorem finishEnc_nbytes (w : Nat) (x : Word) : (s.finishEnc w x).nbytes = BitVec.ofNat 3 w := rfl
@[simp] theorem finishEnc_pbuf (w : Nat) (x : Word) : (s.finishEnc w x).pbuf = s.pbuf.writeBytes s.cursor (beBytes w (x.setWidth (8 * w))) := rfl
@[simp] theorem finishEnc_bufTop (w : Nat) (x : Word) : (s.finishEnc w x).bufTop = s.bufTop := rfl
@[simp] theorem finishEnc_epoch (w : Nat) (x : Word) : (s.finishEnc w x).epoch = s.epoch := rfl
@[simp] theorem finishEnc_pending (w : Nat) (x : Word) : (s.finishEnc w x).pending = s.pending := rfl
@[simp] theorem finishEnc_returned (w : Nat) (x : Word) : (s.finishEnc w x).returned = s.returned := rfl

/-! `finishDec` -/

@[simp] theorem finishDec_cmd (w : Nat) (v : Bool) (x : Word) : (s.finishDec w v x).cmd = s.cmd := rfl
@[simp] theorem finishDec_valid (w : Nat) (v : Bool) (x : Word) : (s.finishDec w v x).valid = v := rfl
@[simp] theorem finishDec_fault (w : Nat) (v : Bool) (x : Word) : (s.finishDec w v x).fault = s.fault := rfl
@[simp] theorem finishDec_fcause (w : Nat) (v : Bool) (x : Word) : (s.finishDec w v x).fcause = s.fcause := rfl
@[simp] theorem finishDec_scale (w : Nat) (v : Bool) (x : Word) : (s.finishDec w v x).scale = s.scale := rfl
@[simp] theorem finishDec_vin (w : Nat) (v : Bool) (x : Word) : (s.finishDec w v x).vin = s.vin := rfl
@[simp] theorem finishDec_offset (w : Nat) (v : Bool) (x : Word) : (s.finishDec w v x).offset = s.offset := rfl
@[simp] theorem finishDec_vout (w : Nat) (v : Bool) (x : Word) : (s.finishDec w v x).vout = x := rfl
@[simp] theorem finishDec_nbytes (w : Nat) (v : Bool) (x : Word) : (s.finishDec w v x).nbytes = BitVec.ofNat 3 w := rfl
@[simp] theorem finishDec_pbuf (w : Nat) (v : Bool) (x : Word) : (s.finishDec w v x).pbuf = s.pbuf := rfl
@[simp] theorem finishDec_bufTop (w : Nat) (v : Bool) (x : Word) : (s.finishDec w v x).bufTop = s.bufTop := rfl
@[simp] theorem finishDec_epoch (w : Nat) (v : Bool) (x : Word) : (s.finishDec w v x).epoch = s.epoch := rfl
@[simp] theorem finishDec_pending (w : Nat) (v : Bool) (x : Word) : (s.finishDec w v x).pending = s.pending := rfl
@[simp] theorem finishDec_returned (w : Nat) (v : Bool) (x : Word) : (s.finishDec w v x).returned = s.returned := rfl

/-! `respond` -/

@[simp] theorem respond_cmd (r : Response) : (s.respond r).cmd = s.cmd := rfl
@[simp] theorem respond_valid (r : Response) : (s.respond r).valid = s.valid := rfl
@[simp] theorem respond_fault (r : Response) : (s.respond r).fault = s.fault := rfl
@[simp] theorem respond_fcause (r : Response) : (s.respond r).fcause = s.fcause := rfl
@[simp] theorem respond_scale (r : Response) : (s.respond r).scale = s.scale := rfl
@[simp] theorem respond_vin (r : Response) : (s.respond r).vin = s.vin := rfl
@[simp] theorem respond_offset (r : Response) : (s.respond r).offset = s.offset := rfl
@[simp] theorem respond_vout (r : Response) : (s.respond r).vout = s.vout := rfl
@[simp] theorem respond_nbytes (r : Response) : (s.respond r).nbytes = s.nbytes := rfl
@[simp] theorem respond_pbuf (r : Response) : (s.respond r).pbuf = s.pbuf := rfl
@[simp] theorem respond_bufTop (r : Response) : (s.respond r).bufTop = s.bufTop := rfl
@[simp] theorem respond_epoch (r : Response) : (s.respond r).epoch = s.epoch := rfl
@[simp] theorem respond_pending (r : Response) : (s.respond r).pending = s.pending := rfl
@[simp] theorem respond_returned (r : Response) : (s.respond r).returned = r :: s.returned := rfl

/-! `applyReset` -/

@[simp] theorem applyReset_cmd : (s.applyReset).cmd = 0#32 := rfl
@[simp] theorem applyReset_valid : (s.applyReset).valid = false := rfl
@[simp] theorem applyReset_fault : (s.applyReset).fault = false := rfl
@[simp] theorem applyReset_fcause : (s.applyReset).fcause = 0#4 := rfl
@[simp] theorem applyReset_scale : (s.applyReset).scale = 0x3F800000#32 := rfl
@[simp] theorem applyReset_vin : (s.applyReset).vin = 0#32 := rfl
@[simp] theorem applyReset_offset : (s.applyReset).offset = 0#16 := rfl
@[simp] theorem applyReset_vout : (s.applyReset).vout = 0#32 := rfl
@[simp] theorem applyReset_nbytes : (s.applyReset).nbytes = 0#3 := rfl
@[simp] theorem applyReset_pbuf : (s.applyReset).pbuf = [] := rfl
@[simp] theorem applyReset_bufTop : (s.applyReset).bufTop = s.bufTop := rfl
@[simp] theorem applyReset_epoch : (s.applyReset).epoch = s.epoch + 1 := rfl
@[simp] theorem applyReset_pending : (s.applyReset).pending = s.pending := rfl
@[simp] theorem applyReset_returned : (s.applyReset).returned = s.returned := rfl
/-! The views of the state that other fields do not reach. -/

@[simp] theorem bufCap_mk (a b c d e f g h i j l m n) :
    (State.mk a b c d e f g h i j s.bufTop l m n).bufCap = s.bufCap := rfl

@[simp] theorem cursor_mk (a b c d e f h i j k l m n) :
    (State.mk a b c d e f s.offset h i j k l m n).cursor = s.cursor := rfl

@[simp] theorem pbufByte_mk (a b c d e f g h i k m n) (x : Nat) :
    (State.mk a b c d e f g h i s.pbuf k s.epoch m n).pbufByte x = s.pbufByte x := rfl

@[simp] theorem memRead_mk (a b c d e f g h i k m n) (x y : Nat) :
    (State.mk a b c d e f g h i s.pbuf k s.epoch m n).memRead x y = s.memRead x y := rfl

theorem bufCap_congr {s t : State} (h : t.bufTop = s.bufTop) : t.bufCap = s.bufCap := by
  simp [bufCap, h]

theorem cursor_congr {s t : State} (h : t.offset = s.offset) : t.cursor = s.cursor := by
  simp [cursor, h]

theorem pbufByte_congr {s t : State} (hp : t.pbuf = s.pbuf) (he : t.epoch = s.epoch) (a : Nat) :
    t.pbufByte a = s.pbufByte a := by
  simp [pbufByte, hp, he]

@[simp] theorem raise_bufCap (c : FaultCode) : (s.raise c).bufCap = s.bufCap := rfl
@[simp] theorem raise_cursor (c : FaultCode) : (s.raise c).cursor = s.cursor := rfl
@[simp] theorem raise_pbufByte (c : FaultCode) (a : Nat) : (s.raise c).pbufByte a = s.pbufByte a := rfl
@[simp] theorem clearFault_bufCap : s.clearFault.bufCap = s.bufCap := rfl
@[simp] theorem finishEnc_bufCap (w : Nat) (x : Word) : (s.finishEnc w x).bufCap = s.bufCap := rfl
@[simp] theorem finishEnc_cursor (w : Nat) (x : Word) : (s.finishEnc w x).cursor = s.cursor := rfl
@[simp] theorem finishDec_bufCap (w : Nat) (v : Bool) (x : Word) : (s.finishDec w v x).bufCap = s.bufCap := rfl
@[simp] theorem finishDec_cursor (w : Nat) (v : Bool) (x : Word) : (s.finishDec w v x).cursor = s.cursor := rfl
@[simp] theorem finishDec_pbufByte (w : Nat) (v : Bool) (x : Word) (a : Nat) :
    (s.finishDec w v x).pbufByte a = s.pbufByte a := rfl
@[simp] theorem applyReset_bufCap : s.applyReset.bufCap = s.bufCap := rfl

/-- BUF_CAP is 1 to 65536 (00_scope.md R8). -/
theorem bufCap_bounds : 1 ≤ s.bufCap ∧ s.bufCap ≤ 65536 := by
  have := s.bufTop.isLt
  simp only [bufCap]
  omega

/-- A byte nobody has written since the reset is a free value (70_reset_and_hazards.md R111). -/
theorem applyReset_pbufByte (a : Nat) : s.applyReset.pbufByte a = Config.pbufFree (s.epoch + 1) a := rfl

end Sys2Proof.Machine.State
end

