-- ==== Sys2Proof/Laws/Operands.lean ====
section
/-! SUPPORT. Byte order: the bytes of a pattern and the pattern of bytes undo each other, so a read of PBUF gives back
what was written (00_scope.md R10, 20_memory.md R33). -/

namespace Sys2Proof.Machine

theorem beNat_append (bs : List Byte) (b : Byte) : beNat (bs ++ [b]) = beNat bs * 256 + b.toNat := by
  simp [beNat]

theorem beNat_lt (bs : List Byte) : beNat bs < 256 ^ bs.length := by
  induction bs using List.reverseRecOn with
  | nil => simp [beNat]
  | append_singleton bs b ih =>
    have := b.isLt
    rw [beNat_append, List.length_append, List.length_singleton, Nat.pow_succ]
    omega

@[simp] theorem beBytes_length (n : Nat) (v : BitVec (8 * n)) : (beBytes n v).length = n := by
  simp [beBytes]

@[simp] theorem beBytes_getElem (n : Nat) (v : BitVec (8 * n)) {k : Nat} (h : k < (beBytes n v).length) :
    (beBytes n v)[k] = beByte n v k := by
  simp [beBytes]

/-- Digit k of an n-digit base-256 number, most significant first. -/
theorem beByte_toNat (n : Nat) (v : BitVec (8 * n)) (k : Nat) :
    (beByte n v k).toNat = v.toNat / 256 ^ (n - 1 - k) % 256 := by
  simp [beByte, Nat.shiftRight_eq_div_pow, Nat.pow_mul]

/-- Byte k of the big-endian value of a list of n bytes is the k-th of them. -/
theorem beNat_digit (bs : List Byte) {k : Nat} (h : k < bs.length) :
    beNat bs / 256 ^ (bs.length - 1 - k) % 256 = bs[k].toNat := by
  induction bs using List.reverseRecOn with
  | nil => simp at h
  | append_singleton bs b ih =>
    rw [beNat_append]
    have hb := b.isLt
    rw [List.length_append, List.length_singleton] at h ⊢
    rcases Nat.lt_or_ge k bs.length with hk | hk
    · rw [List.getElem_append_left hk, ← ih hk,
        show bs.length + 1 - 1 - k = (bs.length - 1 - k) + 1 by omega, Nat.pow_succ', ← Nat.div_div_eq_div_mul]
      congr 2
      omega
    · have hk' : k = bs.length := by omega
      subst hk'
      simp
      omega

theorem beByte_ofNat_beNat (bs : List Byte) {n k : Nat} (hn : bs.length = n) (h : k < n) :
    beByte n (BitVec.ofNat (8 * n) (beNat bs)) k = bs[k]'(by omega) := by
  apply BitVec.eq_of_toNat_eq
  have hlt : beNat bs < 2 ^ (8 * n) := by
    have := beNat_lt bs
    rwa [hn, show (256 : Nat) = 2 ^ 8 by rfl, ← Nat.pow_mul] at this
  rw [beByte_toNat, BitVec.toNat_ofNat, Nat.mod_eq_of_lt hlt, ← beNat_digit bs (by omega), hn]

/-- Two patterns with the same bytes are equal. -/
theorem beByte_ext {n : Nat} {u v : BitVec (8 * n)} (h : ∀ k < n, beByte n u k = beByte n v k) : u = v := by
  apply BitVec.eq_of_getLsbD_eq
  intro i hi
  have := congrArg (fun b => b.getLsbD (i % 8)) (h (n - 1 - i / 8) (by omega))
  simp only [beByte, BitVec.getLsbD_extractLsb'] at this
  rw [show 8 * (n - 1 - (n - 1 - i / 8)) + i % 8 = i by omega] at this
  simpa [show i % 8 < 8 by omega] using this

namespace State

/-- Byte k of a field read from PBUF is the byte at its k-th offset. -/
theorem beByte_memRead (s : State) (a n : Nat) {k : Nat} (h : k < n) :
    beByte n (s.memRead a n) k = s.pbufByte (a + k) := by
  rw [memRead, beByte_ofNat_beNat _ (by simp) h]
  simp

/-- A read is determined by the bytes it covers. -/
theorem memRead_congr {s t : State} {a n : Nat} (h : ∀ k < n, t.pbufByte (a + k) = s.pbufByte (a + k)) :
    t.memRead a n = s.memRead a n :=
  beByte_ext fun k hk => by rw [beByte_memRead t a n hk, beByte_memRead s a n hk, h k hk]

theorem memRead_eq_of_bytes {s : State} {a n : Nat} {u : BitVec (8 * n)}
    (h : ∀ k < n, s.pbufByte (a + k) = beByte n u k) : s.memRead a n = u :=
  beByte_ext fun k hk => by rw [beByte_memRead s a n hk, h k hk]

theorem pbufByte_memWrite_inside (s : State) (a n : Nat) (v : BitVec (8 * n)) {k : Nat} (h : k < n) :
    (s.memWrite a n v).pbufByte (a + k) = beByte n v k := by
  simp only [pbufByte, memWrite_pbuf]
  rw [Memory.lookup_writeBytes_inside _ _ _ (by simpa using h)]
  simp

theorem pbufByte_memWrite_outside (s : State) {a n x : Nat} (v : BitVec (8 * n)) (h : x < a ∨ a + n ≤ x) :
    (s.memWrite a n v).pbufByte x = s.pbufByte x := by
  simp only [pbufByte, memWrite_pbuf, memWrite_epoch]
  rw [Memory.lookup_writeBytes_outside _ _ (by simpa using h)]

/-- A read after a write to the same place gives the value written. -/
theorem memRead_memWrite (s : State) (a n : Nat) (v : BitVec (8 * n)) : (s.memWrite a n v).memRead a n = v :=
  memRead_eq_of_bytes fun _ hk => pbufByte_memWrite_inside s a n v hk

/-- The bytes a completed encode leaves at the cursor. -/
theorem finishEnc_pbufByte_inside (s : State) (w : Nat) (x : Word) {k : Nat} (h : k < w) :
    (s.finishEnc w x).pbufByte (s.cursor + k) = beByte w (x.setWidth (8 * w)) k :=
  pbufByte_memWrite_inside s s.cursor w _ h

/-- A completed encode changes no byte outside its field. -/
theorem finishEnc_pbufByte_outside (s : State) {w : Nat} (x : Word) {a : Nat} (h : a < s.cursor ∨ s.cursor + w ≤ a) :
    (s.finishEnc w x).pbufByte a = s.pbufByte a :=
  pbufByte_memWrite_outside s _ h

/-- A completed encode's field reads back as the low w bytes of its pattern. -/
theorem finishEnc_memRead (s : State) (w : Nat) (x : Word) :
    (s.finishEnc w x).memRead s.cursor w = x.setWidth (8 * w) :=
  memRead_eq_of_bytes fun _ hk => finishEnc_pbufByte_inside s w x hk

end State

/-- The low bytes of a 32-bit pattern, as the packer stores them. -/
theorem beByte_setWidth (x : Word) {w k : Nat} (hk : k < w) :
    beByte w (x.setWidth (8 * w)) k = x.extractLsb' (8 * (w - 1 - k)) 8 := by
  apply BitVec.eq_of_getLsbD_eq
  intro i hi
  simp only [beByte, BitVec.getLsbD_extractLsb', BitVec.getLsbD_setWidth]
  have : 8 * (w - 1 - k) + i < 8 * w := by omega
  simp [hi, this]

end Sys2Proof.Machine
end

