-- ==== Sys2Proof/Laws/Commands.lean ====
section
/-! SUPPORT. What a command can do, said once: `exec` as one of the two sequences, the checks of each sequence, and the
inversion of a completed or faulting command. -/

namespace Sys2Proof.Machine

/-! ### The schema -/

theorem schemaOk_of_schema {tb vc w : Nat} (h : Schema tb vc w) : schemaOk tb vc = true := by
  obtain ⟨hvc, rfl, h1, h4⟩ := h
  simp [schemaOk, Nat.mul_div_cancel_left w hvc, h1, h4]
  omega

theorem fieldWidth_of_schema {tb vc w : Nat} (h : Schema tb vc w) : fieldWidth tb vc = w := by
  obtain ⟨hvc, rfl, -, -⟩ := h
  exact Nat.mul_div_cancel_left w hvc

/-- SchemaOK says that TB is VC fields of 1 to 4 bytes (40_datapath.md R63). -/
theorem schema_of_schemaOk {tb vc : Nat} (h : schemaOk tb vc = true) : Schema tb vc (fieldWidth tb vc) := by
  simp only [schemaOk, Bool.and_eq_true, bne_iff_ne, ne_eq, beq_iff_eq, decide_eq_true_eq] at h
  obtain ⟨⟨⟨h0, hm⟩, h1⟩, h4⟩ := h
  exact ⟨by omega, (Nat.mul_div_cancel' (Nat.dvd_of_mod_eq_zero hm)).symm, h1, h4⟩

theorem schemaOk_eq_false {tb vc : Nat} (h : ∀ w, ¬ Schema tb vc w) : schemaOk tb vc = false := by
  by_contra hc
  exact h _ (schema_of_schemaOk (by simpa using hc))

/-! ### `exec` as a sequence -/

@[simp] theorem exec_encOf (t : ValueType) (v : Bool) (tb vc : Nat) (sg : Bool) (s : State) :
    exec (encOf t v tb vc sg) s = .next (s.encodeSequence t v tb vc sg) := by
  cases t <;> rfl

@[simp] theorem exec_decOf (t : ValueType) (tb vc : Nat) (sg : Bool) (s : State) :
    exec (decOf t tb vc sg) s = .next (s.decodeSequence t tb vc sg) := by
  cases t <;> rfl

/-- Every command is the encode or the decode command of its value type. -/
theorem instr_eq (i : Instr) :
    i = if i.isEnc then encOf i.valueType i.validFlag i.totalBytes i.valueCount i.signed
      else decOf i.valueType i.totalBytes i.valueCount i.signed := by
  cases i <;> rfl

theorem exec_enc {i : Instr} (h : i.isEnc = true) (s : State) :
    exec i s = .next (s.encodeSequence i.valueType i.validFlag i.totalBytes i.valueCount i.signed) := by
  cases i <;> first | rfl | cases h

theorem exec_dec {i : Instr} (h : i.isEnc = false) (s : State) :
    exec i s = .next (s.decodeSequence i.valueType i.totalBytes i.valueCount i.signed) := by
  cases i <;> first | rfl | cases h

/-- Every command ends in a next state (60_exceptions.md R99; no case of the block is stuck). -/
theorem exec_answers (i : Instr) (s : State) : ∃ t, exec i s = .next t := by
  cases i <;> exact ⟨_, rfl⟩

namespace State

/-! ### The checks -/

theorem encFault_schema {t : ValueType} {v : Bool} {tb vc : Nat} {s : State} (h : schemaOk tb vc = false) :
    s.encFault t v tb vc = some .fSchema := by
  simp [encFault, h]

theorem decFault_schema {t : ValueType} {tb vc : Nat} {s : State} (h : schemaOk tb vc = false) :
    s.decFault t tb vc = some .fSchema := by
  simp [decFault, h]

/-- An encode passes all its checks exactly here (60_exceptions.md R94). -/
theorem encFault_eq_none {t : ValueType} {v : Bool} {tb vc : Nat} {s : State} :
    s.encFault t v tb vc = none ↔
      schemaOk tb vc = true ∧ s.cursor + fieldWidth tb vc ≤ s.bufCap ∧ (t = .f32 → scaleOk s.scale = true)
        ∧ (t = .f32 → v = true → isNaN s.vin = false) := by
  unfold encFault
  split_ifs with h1 h2 h3 h4 <;> simp_all

/-- A decode passes all its checks exactly here (60_exceptions.md R94). -/
theorem decFault_eq_none {t : ValueType} {tb vc : Nat} {s : State} :
    s.decFault t tb vc = none ↔
      schemaOk tb vc = true ∧ s.cursor + fieldWidth tb vc ≤ s.bufCap ∧ widthOk t (fieldWidth tb vc) = true
        ∧ (t = .f32 → scaleOk s.scale = true) := by
  unfold decFault
  split_ifs with h1 h2 h3 h4 <;> simp_all

/-! The checks read nothing that a command writes. -/

@[simp] theorem encFault_raise (t : ValueType) (v : Bool) (tb vc : Nat) (c : FaultCode) (s : State) :
    (s.raise c).encFault t v tb vc = s.encFault t v tb vc := rfl

@[simp] theorem encFault_finishEnc (t : ValueType) (v : Bool) (tb vc w : Nat) (x : Word) (s : State) :
    (s.finishEnc w x).encFault t v tb vc = s.encFault t v tb vc := rfl

@[simp] theorem decFault_raise (t : ValueType) (tb vc : Nat) (c : FaultCode) (s : State) :
    (s.raise c).decFault t tb vc = s.decFault t tb vc := rfl

@[simp] theorem decFault_finishEnc (t : ValueType) (tb vc w : Nat) (x : Word) (s : State) :
    (s.finishEnc w x).decFault t tb vc = s.decFault t tb vc := rfl

@[simp] theorem decFault_finishDec (t : ValueType) (tb vc w : Nat) (v : Bool) (x : Word) (s : State) :
    (s.finishDec w v x).decFault t tb vc = s.decFault t tb vc := rfl

/-! ### The two sequences -/

theorem encodeSequence_of_fault {t : ValueType} {v : Bool} {tb vc : Nat} {sg : Bool} {s : State} {c : FaultCode}
    (h : s.encFault t v tb vc = some c) : s.encodeSequence t v tb vc sg = s.raise c := by
  simp [encodeSequence, h]

theorem encodeSequence_of_none {t : ValueType} {v : Bool} {tb vc : Nat} {sg : Bool} {s : State}
    (h : s.encFault t v tb vc = none) :
    s.encodeSequence t v tb vc sg
      = s.finishEnc (fieldWidth tb vc) (encPattern t v (fieldWidth tb vc) sg s.vin s.scale) := by
  simp [encodeSequence, h]

theorem decodeSequence_of_fault {t : ValueType} {tb vc : Nat} {sg : Bool} {s : State} {c : FaultCode}
    (h : s.decFault t tb vc = some c) : s.decodeSequence t tb vc sg = s.raise c := by
  simp [decodeSequence, h]

theorem decodeSequence_of_none {t : ValueType} {tb vc : Nat} {sg : Bool} {s : State}
    (h : s.decFault t tb vc = none) :
    s.decodeSequence t tb vc sg
      = s.finishDec (fieldWidth tb vc) (!isSentinel _ (s.memRead s.cursor (fieldWidth tb vc)) sg)
          (if isSentinel _ (s.memRead s.cursor (fieldWidth tb vc)) sg then 0#32
            else decPattern t _ (s.memRead s.cursor (fieldWidth tb vc)) sg s.scale) := by
  simp [decodeSequence, h]

/-- Everything an encode can do: raise one fault, or complete on a legal schema inside PBUF. -/
theorem encodeSequence_cases (t : ValueType) (v : Bool) (tb vc : Nat) (sg : Bool) (s : State) :
    (∃ c, s.encFault t v tb vc = some c ∧ s.encodeSequence t v tb vc sg = s.raise c) ∨
    (∃ w, s.encFault t v tb vc = none ∧ Schema tb vc w ∧ s.cursor + w ≤ s.bufCap ∧
      s.encodeSequence t v tb vc sg = s.finishEnc w (encPattern t v w sg s.vin s.scale)) := by
  cases h : s.encFault t v tb vc with
  | some c => exact .inl ⟨c, rfl, encodeSequence_of_fault h⟩
  | none =>
    obtain ⟨hs, hr, -, -⟩ := encFault_eq_none.mp h
    exact .inr ⟨_, rfl, schema_of_schemaOk hs, hr, encodeSequence_of_none h⟩

/-- Everything a decode can do: raise one fault, or complete on a legal schema inside PBUF. -/
theorem decodeSequence_cases (t : ValueType) (tb vc : Nat) (sg : Bool) (s : State) :
    (∃ c, s.decFault t tb vc = some c ∧ s.decodeSequence t tb vc sg = s.raise c) ∨
    (∃ w, s.decFault t tb vc = none ∧ Schema tb vc w ∧ s.cursor + w ≤ s.bufCap ∧
      s.decodeSequence t tb vc sg
        = s.finishDec w (!isSentinel w (s.memRead s.cursor w) sg)
            (if isSentinel w (s.memRead s.cursor w) sg then 0#32
              else decPattern t w (s.memRead s.cursor w) sg s.scale)) := by
  cases h : s.decFault t tb vc with
  | some c => exact .inl ⟨c, rfl, decodeSequence_of_fault h⟩
  | none =>
    obtain ⟨hs, hr, -, -⟩ := decFault_eq_none.mp h
    exact .inr ⟨_, rfl, schema_of_schemaOk hs, hr, decodeSequence_of_none h⟩

/-- NBYTES of a completed command is its width. -/
theorem nbytes_of_schema {tb vc w : Nat} (h : Schema tb vc w) : (BitVec.ofNat 3 w).toNat = w := by
  obtain ⟨-, -, -, h4⟩ := h
  simp [Nat.mod_eq_of_lt (show w < 8 by omega)]

theorem nbytes_ne_zero {tb vc w : Nat} (h : Schema tb vc w) : BitVec.ofNat 3 w ≠ 0#3 := fun hc => by
  have hw := nbytes_of_schema h
  have h1 := h.2.2.1
  rw [hc, BitVec.toNat_ofNat] at hw
  omega

/-- A fault leaves what `TookFault` says (60_exceptions.md R95 to R97). -/
theorem raise_tookFault (s : State) (c : FaultCode) : TookFault s (s.raise c) c.code where
  nbytes := rfl
  fault := rfl
  fcause := rfl
  valid := rfl
  vout := rfl
  pbuf _ := rfl
  operands := ⟨rfl, rfl, rfl, rfl, rfl, rfl, rfl, rfl⟩

theorem finishEnc_sameOperands (s : State) (w : Nat) (x : Word) : s.SameOperands (s.finishEnc w x) :=
  ⟨rfl, rfl, rfl, rfl, rfl, rfl, rfl, rfl⟩

theorem finishDec_sameOperands (s : State) (w : Nat) (v : Bool) (x : Word) : s.SameOperands (s.finishDec w v x) :=
  ⟨rfl, rfl, rfl, rfl, rfl, rfl, rfl, rfl⟩

end State

/-- Every fault code is 1 to 8 (60_exceptions.md R93). -/
theorem code_bounds (c : FaultCode) : 1#4 ≤ c.code ∧ c.code ≤ 8#4 := by cases c <;> decide

end Sys2Proof.Machine
end

