-- ==== Sys2Proof/Laws/Encoding.lean ====
section
/-! SUPPORT. The fields of a command word put together and taken apart again (30_encoding.md R50, R61). -/

namespace Sys2Proof

/-- A word assembled from its fields (30_encoding.md R61). -/
def assemble (op : BitVec 4) (vt : BitVec 3) (v : Bool) (tb vc : BitVec 8) (sg : Bool) : Word :=
  (op.setWidth 32 <<< 28) ||| (vt.setWidth 32 <<< 25) ||| ((BitVec.ofBool v).setWidth 32 <<< 24)
    ||| (tb.setWidth 32 <<< 16) ||| (vc.setWidth 32 <<< 8) ||| ((BitVec.ofBool sg).setWidth 32 <<< 7)

theorem encode_eq_assemble (i : Instr) :
    encode i = assemble i.opBits i.valueType.field i.validFlag (BitVec.ofNat 8 i.totalBytes)
      (BitVec.ofNat 8 i.valueCount) i.signed := rfl

section
variable (op : BitVec 4) (vt : BitVec 3) (v : Bool) (tb vc : BitVec 8) (sg : Bool)

@[simp] theorem opField_assemble : opField (assemble op vt v tb vc sg) = op := by
  apply BitVec.eq_of_getLsbD_eq
  intro i hi
  interval_cases i <;> simp [opField, assemble]

@[simp] theorem vtField_assemble : vtField (assemble op vt v tb vc sg) = vt := by
  apply BitVec.eq_of_getLsbD_eq
  intro i hi
  interval_cases i <;> simp [vtField, assemble]

@[simp] theorem vField_assemble : vField (assemble op vt v tb vc sg) = v := by
  simp [vField, assemble]

@[simp] theorem tbField_assemble : tbField (assemble op vt v tb vc sg) = tb := by
  apply BitVec.eq_of_getLsbD_eq
  intro i hi
  interval_cases i <;> simp [tbField, assemble]

@[simp] theorem vcField_assemble : vcField (assemble op vt v tb vc sg) = vc := by
  apply BitVec.eq_of_getLsbD_eq
  intro i hi
  interval_cases i <;> simp [vcField, assemble]

@[simp] theorem sgField_assemble : sgField (assemble op vt v tb vc sg) = sg := by
  simp [sgField, assemble]

@[simp] theorem rsvField_assemble : rsvField (assemble op vt v tb vc sg) = 0#7 := by
  apply BitVec.eq_of_getLsbD_eq
  intro i hi
  interval_cases i <;> simp [rsvField, assemble]

end

/-- A word whose reserved bits are 0 is its fields assembled. -/
theorem assemble_fields {x : Word} (h : rsvField x = 0#7) :
    assemble (opField x) (vtField x) (vField x) (tbField x) (vcField x) (sgField x) = x := by
  apply BitVec.eq_of_getLsbD_eq
  intro i hi
  have hr : ∀ k (hk : k < 7), x[k]'(by omega) = false := fun k hk => by
    have := congrArg (fun b => b.getLsbD k) h
    simpa [rsvField, hk, BitVec.getLsbD_eq_getElem (show k < 32 by omega)] using this
  interval_cases i <;>
    simp [assemble, opField, vtField, vField, tbField, vcField, sgField, hr]

/-- The VT field of a value type names it (30_encoding.md R52). -/
@[simp] theorem valueTypeOf_field (t : ValueType) : valueTypeOf t.field = some t := by cases t <;> rfl

theorem field_of_valueTypeOf {f : BitVec 3} {t : ValueType} (h : valueTypeOf f = some t) : t.field = f := by
  revert f t
  decide

/-! The fields as numbers (30_encoding.md R50). -/

theorem opField_toNat (c : Word) : (opField c).toNat = c.toNat / 2 ^ 28 := by
  simp [opField, Nat.shiftRight_eq_div_pow]
  omega

theorem vtField_toNat (c : Word) : (vtField c).toNat = c.toNat / 2 ^ 25 % 8 := by
  simp [vtField, Nat.shiftRight_eq_div_pow]

theorem tbField_toNat (c : Word) : (tbField c).toNat = c.toNat / 2 ^ 16 % 256 := by
  simp [tbField, Nat.shiftRight_eq_div_pow]

theorem vcField_toNat (c : Word) : (vcField c).toNat = c.toNat / 2 ^ 8 % 256 := by
  simp [vcField, Nat.shiftRight_eq_div_pow]

theorem rsvField_toNat (c : Word) : (rsvField c).toNat = c.toNat % 2 ^ 7 := by
  simp [rsvField]

theorem bit_toNat (c : Word) (k : Nat) : (c.getLsbD k).toNat = c.toNat / 2 ^ k % 2 := by
  rw [BitVec.getLsbD, Nat.testBit_eq_decide_div_mod_eq]
  rcases Nat.mod_two_eq_zero_or_one (c.toNat / 2 ^ k) with h | h <;> simp [h]

/-- Everything the decoder can say, with what it says it of (30_encoding.md R58). -/
theorem decode_cases (c : Word) :
    (decode c = .illegal .fOp ∧ opField c ≠ 1#4 ∧ opField c ≠ 2#4) ∨
    (decode c = .illegal .fType ∧ (opField c = 1#4 ∨ opField c = 2#4) ∧ valueTypeOf (vtField c) = none) ∨
    (∃ t, decode c = .illegal .fRsv ∧ (opField c = 1#4 ∨ opField c = 2#4) ∧ valueTypeOf (vtField c) = some t ∧
      (rsvField c ≠ 0#7 ∨ opField c = 2#4 ∧ vField c = true)) ∨
    (∃ t, decode c = .command (encOf t (vField c) (tbField c).toNat (vcField c).toNat (sgField c)) ∧
      opField c = 1#4 ∧ valueTypeOf (vtField c) = some t ∧ rsvField c = 0#7) ∨
    (∃ t, decode c = .command (decOf t (tbField c).toNat (vcField c).toNat (sgField c)) ∧
      opField c = 2#4 ∧ valueTypeOf (vtField c) = some t ∧ rsvField c = 0#7 ∧ vField c = false) := by
  unfold decode
  by_cases hop : opField c ≠ 0x1#4 ∧ opField c ≠ 0x2#4
  · exact .inl ⟨if_pos hop, hop⟩
  · have hop' : opField c = 1#4 ∨ opField c = 2#4 := by tauto
    rw [if_neg hop]
    cases hvt : valueTypeOf (vtField c) with
    | none => exact .inr (.inl ⟨rfl, hop', rfl⟩)
    | some t =>
      dsimp only
      by_cases hrsv : rsvField c ≠ 0#7 ∨ (opField c = 0x2#4 ∧ vField c = true)
      · exact .inr (.inr (.inl ⟨t, if_pos hrsv, hop', rfl, hrsv⟩))
      · rw [if_neg hrsv]
        push Not at hrsv
        rcases hop' with h | h
        · exact .inr (.inr (.inr (.inl ⟨t, if_pos h, h, rfl, hrsv.1⟩)))
        · refine .inr (.inr (.inr (.inr ⟨t, if_neg ?_, h, rfl, hrsv.1, by simpa using hrsv.2 h⟩)))
          rw [h]
          decide

/-! The fields of the commands the decoder makes. -/

section
variable (t : ValueType) (v : Bool) (tb vc : Nat) (sg : Bool)

@[simp] theorem encOf_isEnc : (encOf t v tb vc sg).isEnc = true := by cases t <;> rfl
@[simp] theorem encOf_valueType : (encOf t v tb vc sg).valueType = t := by cases t <;> rfl
@[simp] theorem encOf_validFlag : (encOf t v tb vc sg).validFlag = v := by cases t <;> rfl
@[simp] theorem encOf_totalBytes : (encOf t v tb vc sg).totalBytes = tb := by cases t <;> rfl
@[simp] theorem encOf_valueCount : (encOf t v tb vc sg).valueCount = vc := by cases t <;> rfl
@[simp] theorem encOf_signed : (encOf t v tb vc sg).signed = sg := by cases t <;> rfl
@[simp] theorem decOf_isEnc : (decOf t tb vc sg).isEnc = false := by cases t <;> rfl
@[simp] theorem decOf_valueType : (decOf t tb vc sg).valueType = t := by cases t <;> rfl
@[simp] theorem decOf_validFlag : (decOf t tb vc sg).validFlag = false := by cases t <;> rfl
@[simp] theorem decOf_totalBytes : (decOf t tb vc sg).totalBytes = tb := by cases t <;> rfl
@[simp] theorem decOf_valueCount : (decOf t tb vc sg).valueCount = vc := by cases t <;> rfl
@[simp] theorem decOf_signed : (decOf t tb vc sg).signed = sg := by cases t <;> rfl

end

end Sys2Proof
end

