-- ==== Sys2Proof/Laws/Float.lean ====
section
/-! SUPPORT. The exact arithmetic under the float units: powers of two, the fields of a pattern, and the exponent of a
rational. -/

namespace Sys2Proof.Machine

theorem pow2_eq (k : ℤ) : pow2 k = (2 : ℚ) ^ k := by
  cases k with
  | ofNat n => simp [pow2]
  | negSucc n => simp [pow2, Rat.mkRat_eq_div, zpow_negSucc]

theorem pow2_pos (k : ℤ) : 0 < pow2 k := by
  rw [pow2_eq]
  positivity

theorem pow2_add (j k : ℤ) : pow2 (j + k) = pow2 j * pow2 k := by
  simp only [pow2_eq]
  exact zpow_add₀ (by norm_num) j k

theorem pow2_le_pow2 {j k : ℤ} : pow2 j ≤ pow2 k ↔ j ≤ k := by
  simp only [pow2_eq]
  exact zpow_le_zpow_iff_right₀ (by norm_num)

theorem pow2_lt_pow2 {j k : ℤ} : pow2 j < pow2 k ↔ j < k := by
  simp only [pow2_eq]
  exact zpow_lt_zpow_iff_right₀ (by norm_num)

theorem f32Exp_lt (b : Word) : f32Exp b < 256 := (b.extractLsb' 23 8).isLt

theorem f32Frac_lt (b : Word) : f32Frac b < 2 ^ 23 := (b.extractLsb' 0 23).isLt

theorem f32Exp_eq (b : Word) : f32Exp b = b.toNat / 2 ^ 23 % 256 := by
  simp [f32Exp, Nat.shiftRight_eq_div_pow]

theorem f32Frac_eq (b : Word) : f32Frac b = b.toNat % 2 ^ 23 := by
  simp [f32Frac]

theorem f32Mag_nonneg (b : Word) : 0 ≤ f32Mag b := by
  unfold f32Mag
  split <;> exact mul_nonneg (by positivity) (pow2_pos _).le

theorem abs_f32val (b : Word) : |f32val b| = f32Mag b := by
  unfold f32val
  split
  · rw [abs_neg, abs_of_nonneg (f32Mag_nonneg b)]
  · exact abs_of_nonneg (f32Mag_nonneg b)

/-- The bit lengths of numerator and denominator give the exponent of a quotient to within one. -/
theorem div_between_pow2 {n d : ℕ} (hn : n ≠ 0) (hd : d ≠ 0) :
    pow2 ((n.log2 : ℤ) - d.log2 - 1) < (n : ℚ) / d ∧ (n : ℚ) / d < pow2 ((n.log2 : ℤ) - d.log2 + 1) := by
  have hdpos : (0 : ℚ) < d := by positivity
  have n1 : pow2 n.log2 ≤ n := by
    rw [pow2_eq, zpow_natCast]
    exact_mod_cast Nat.log2_self_le hn
  have n2 : (n : ℚ) < pow2 (n.log2 + 1) := by
    rw [pow2_eq, ← Nat.cast_succ, zpow_natCast]
    exact_mod_cast Nat.lt_log2_self
  have d1 : pow2 d.log2 ≤ d := by
    rw [pow2_eq, zpow_natCast]
    exact_mod_cast Nat.log2_self_le hd
  have d2 : (d : ℚ) < pow2 (d.log2 + 1) := by
    rw [pow2_eq, ← Nat.cast_succ, zpow_natCast]
    exact_mod_cast Nat.lt_log2_self
  constructor
  · rw [lt_div_iff₀ hdpos]
    calc pow2 ((n.log2 : ℤ) - d.log2 - 1) * d
        < pow2 ((n.log2 : ℤ) - d.log2 - 1) * pow2 (d.log2 + 1) := mul_lt_mul_of_pos_left d2 (pow2_pos _)
      _ = pow2 n.log2 := by
        rw [← pow2_add]
        congr 1
        ring
      _ ≤ n := n1
  · rw [div_lt_iff₀ hdpos]
    calc (n : ℚ) < pow2 (n.log2 + 1) := n2
      _ = pow2 ((n.log2 : ℤ) - d.log2 + 1) * pow2 d.log2 := by
        rw [← pow2_add]
        congr 1
        ring
      _ ≤ pow2 ((n.log2 : ℤ) - d.log2 + 1) * d := mul_le_mul_of_nonneg_left d1 (pow2_pos _).le

/-- `binExp` is the exponent: 2^k <= q < 2^(k+1). -/
theorem binExp_spec {q : ℚ} (hq : 0 < q) : pow2 (binExp q) ≤ q ∧ q < pow2 (binExp q + 1) := by
  have hnum : 0 < q.num := Rat.num_pos.mpr hq
  have hqe : ((q.num.natAbs : ℕ) : ℚ) / q.den = q := by
    rw [← Int.cast_natCast, Int.natAbs_of_nonneg hnum.le, Rat.num_div_den]
  have h := div_between_pow2 (n := q.num.natAbs) (d := q.den) (by omega) q.den_nz
  rw [hqe] at h
  unfold binExp
  simp only
  split
  · rename_i hle
    exact ⟨hle, h.2⟩
  · rename_i hle
    exact ⟨h.1.le, by simpa using hle⟩

end Sys2Proof.Machine
end

