-- ==== Sys2Proof/Laws/PerInstr.lean ====
section
/-! SUPPORT. Statements about every instruction as syntax, one lemma a constructor. -/

namespace Sys2Proof.Laws.EncodingMatchesRow

/-- The word of a command matches the row of the opcode table that has its mnemonic (30_encoding.md R58). -/
def Statement (i : Instr) : Prop := ∃ r ∈ opcodeRows, r.mnemonic = i.mnemonic ∧ r.accepts (encode i) = true

/-- The bits a row's mask keeps, of a word assembled from fields: OP and VT, V where the mask has it, and the
reserved bits, which are 0. -/
theorem assemble_and_mask (op : BitVec 4) (vt : BitVec 3) (v : Bool) (tb vc : BitVec 8) (sg : Bool) :
    assemble op vt v tb vc sg &&& 0xFE00007F#32 = assemble op vt false 0#8 0#8 false
      ∧ assemble op vt v tb vc sg &&& 0xFF00007F#32 = assemble op vt v 0#8 0#8 false := by
  constructor <;>
  · apply BitVec.eq_of_getLsbD_eq
    intro i hi
    interval_cases i <;> simp [assemble]

theorem accepts_of_enc {m : String} {p : Word} (i : Instr)
    (h : assemble i.opBits i.valueType.field false 0#8 0#8 false = p) :
    OpcodeRow.accepts ⟨m, p, 0xFE00007F⟩ (encode i) = true := by
  simp [OpcodeRow.accepts, encode_eq_assemble, assemble_and_mask, h]

theorem accepts_of_dec {m : String} {p : Word} (i : Instr)
    (h : assemble i.opBits i.valueType.field i.validFlag 0#8 0#8 false = p) :
    OpcodeRow.accepts ⟨m, p, 0xFF00007F⟩ (encode i) = true := by
  simp [OpcodeRow.accepts, encode_eq_assemble, assemble_and_mask, h]

theorem encI32 (v : Bool) (tb vc : Nat) (sg : Bool) : Statement (.encI32 v tb vc sg) :=
  ⟨⟨"ENC.I32", 0x10000000, 0xFE00007F⟩, by decide, rfl,
    accepts_of_enc _ (show assemble 0x1#4 0b000#3 false 0#8 0#8 false = 0x10000000#32 by decide)⟩

theorem encF32 (v : Bool) (tb vc : Nat) (sg : Bool) : Statement (.encF32 v tb vc sg) :=
  ⟨⟨"ENC.F32", 0x12000000, 0xFE00007F⟩, by decide, rfl,
    accepts_of_enc _ (show assemble 0x1#4 0b001#3 false 0#8 0#8 false = 0x12000000#32 by decide)⟩

theorem encU8 (v : Bool) (tb vc : Nat) (sg : Bool) : Statement (.encU8 v tb vc sg) :=
  ⟨⟨"ENC.U8", 0x14000000, 0xFE00007F⟩, by decide, rfl,
    accepts_of_enc _ (show assemble 0x1#4 0b010#3 false 0#8 0#8 false = 0x14000000#32 by decide)⟩

theorem encU16 (v : Bool) (tb vc : Nat) (sg : Bool) : Statement (.encU16 v tb vc sg) :=
  ⟨⟨"ENC.U16", 0x16000000, 0xFE00007F⟩, by decide, rfl,
    accepts_of_enc _ (show assemble 0x1#4 0b011#3 false 0#8 0#8 false = 0x16000000#32 by decide)⟩

theorem encU32 (v : Bool) (tb vc : Nat) (sg : Bool) : Statement (.encU32 v tb vc sg) :=
  ⟨⟨"ENC.U32", 0x18000000, 0xFE00007F⟩, by decide, rfl,
    accepts_of_enc _ (show assemble 0x1#4 0b100#3 false 0#8 0#8 false = 0x18000000#32 by decide)⟩

theorem decI32 (tb vc : Nat) (sg : Bool) : Statement (.decI32 tb vc sg) :=
  ⟨⟨"DEC.I32", 0x20000000, 0xFF00007F⟩, by decide, rfl,
    accepts_of_dec _ (show assemble 0x2#4 0b000#3 false 0#8 0#8 false = 0x20000000#32 by decide)⟩

theorem decF32 (tb vc : Nat) (sg : Bool) : Statement (.decF32 tb vc sg) :=
  ⟨⟨"DEC.F32", 0x22000000, 0xFF00007F⟩, by decide, rfl,
    accepts_of_dec _ (show assemble 0x2#4 0b001#3 false 0#8 0#8 false = 0x22000000#32 by decide)⟩

theorem decU8 (tb vc : Nat) (sg : Bool) : Statement (.decU8 tb vc sg) :=
  ⟨⟨"DEC.U8", 0x24000000, 0xFF00007F⟩, by decide, rfl,
    accepts_of_dec _ (show assemble 0x2#4 0b010#3 false 0#8 0#8 false = 0x24000000#32 by decide)⟩

theorem decU16 (tb vc : Nat) (sg : Bool) : Statement (.decU16 tb vc sg) :=
  ⟨⟨"DEC.U16", 0x26000000, 0xFF00007F⟩, by decide, rfl,
    accepts_of_dec _ (show assemble 0x2#4 0b011#3 false 0#8 0#8 false = 0x26000000#32 by decide)⟩

theorem decU32 (tb vc : Nat) (sg : Bool) : Statement (.decU32 tb vc sg) :=
  ⟨⟨"DEC.U32", 0x28000000, 0xFF00007F⟩, by decide, rfl,
    accepts_of_dec _ (show assemble 0x2#4 0b100#3 false 0#8 0#8 false = 0x28000000#32 by decide)⟩

end Sys2Proof.Laws.EncodingMatchesRow
end

