-- ==== Sys2Proof/Laws/Port.lean ====
section
/-! SUPPORT. What a step can do, said once: the host's next access, admitted or not, and everything a CMD write can
do. -/

namespace Sys2Proof.Machine

@[simp] theorem ofOffset_toOffset (r : Reg) : Reg.ofOffset r.toOffset = some r := by cases r <;> rfl

theorem ofOffset_eq_some {off : Nat} {r : Reg} : Reg.ofOffset off = some r ↔ off = r.toOffset := by
  refine ⟨fun h => ?_, fun h => h ▸ ofOffset_toOffset r⟩
  unfold Reg.ofOffset at h
  split at h <;> simp_all <;> subst h <;> rfl

theorem step_nil {s : State} (h : s.pending = []) : step s = .next s := by
  simp [step, h]

theorem step_cons {s : State} {op : HostOp} {rest : List HostOp} (h : s.pending = op :: rest) :
    step s = hostStep op { s with pending := rest } := by
  simp [step, h]

theorem admitRegister_next {off size : Nat} {m : Host.Outcome State Fault Refusal} {t : State}
    (h : admitRegister off size m = .next t) : off < 64 ∧ size = 4 ∧ off % 4 = 0 ∧ m = .next t := by
  unfold admitRegister at h
  split_ifs at h with h1 h2 h3
  exact ⟨by omega, by omega, by omega, h⟩

theorem admitRegister_of {off : Nat} (m : Host.Outcome State Fault Refusal) (h1 : off < 64) (h2 : off % 4 = 0) :
    admitRegister off 4 m = m := by
  simp [admitRegister, h2, Nat.not_le.mpr h1]

theorem admitPbuf_next {off : Nat} {s t : State} {m : Host.Outcome State Fault Refusal}
    (h : admitPbuf off s m = .next t) : off < s.bufCap ∧ m = .next t := by
  unfold admitPbuf at h
  split_ifs at h with h1
  exact ⟨by omega, h⟩

theorem admitPbuf_of {off : Nat} {s : State} (m : Host.Outcome State Fault Refusal) (h : off < s.bufCap) :
    admitPbuf off s m = m := by
  simp [admitPbuf, Nat.not_le.mpr h]

/-- A command word always ends in a next state. -/
theorem runWord_answers (c : Word) (s : State) : ∃ t, runWord c s = .next t := by
  unfold runWord
  split
  · exact exec_answers _ s
  · exact ⟨_, rfl⟩

/-- Everything executing a command word can do. -/
theorem runWord_cases {c : Word} {s t : State} (h : runWord c s = .next t) :
    (∃ k, t = s.raise k) ∨
    (∃ i w, decode c = .command i ∧ i.isEnc = true ∧ Schema i.totalBytes i.valueCount w ∧
      s.cursor + w ≤ s.bufCap ∧
      t = s.finishEnc w (encPattern i.valueType i.validFlag w i.signed s.vin s.scale)) ∨
    (∃ i w, decode c = .command i ∧ i.isEnc = false ∧ Schema i.totalBytes i.valueCount w ∧
      s.cursor + w ≤ s.bufCap ∧
      t = s.finishDec w (!isSentinel w (s.memRead s.cursor w) i.signed)
            (if isSentinel w (s.memRead s.cursor w) i.signed then 0#32
              else decPattern i.valueType w (s.memRead s.cursor w) i.signed s.scale)) := by
  unfold runWord at h
  split at h
  · rename_i i hd
    cases hi : i.isEnc with
    | true =>
      rw [exec_enc hi] at h
      obtain ⟨c, -, hc⟩ | ⟨w, -, hs, hr, hc⟩ :=
        s.encodeSequence_cases i.valueType i.validFlag i.totalBytes i.valueCount i.signed
      · exact .inl ⟨c, by simpa [hc] using h.symm⟩
      · exact .inr (.inl ⟨i, w, hd, hi, hs, hr, by simpa [hc] using h.symm⟩)
    | false =>
      rw [exec_dec hi] at h
      obtain ⟨c, -, hc⟩ | ⟨w, -, hs, hr, hc⟩ :=
        s.decodeSequence_cases i.valueType i.totalBytes i.valueCount i.signed
      · exact .inl ⟨c, by simpa [hc] using h.symm⟩
      · exact .inr (.inr ⟨i, w, hd, hi, hs, hr, by simpa [hc] using h.symm⟩)
  · exact .inl ⟨_, by simpa using h.symm⟩

/-- Everything a host access can do when it ends in a next state. -/
theorem hostStep_cases {op : HostOp} {s t : State} (hop : hostStep op s = .next t) :
    (∃ off r, op = .regRead off 4 ∧ off < 64 ∧ off % 4 = 0 ∧ t = s.respond r) ∨
    (∃ v, op = .regWrite 0x00 4 v ∧ runWord v (s.writeReg .cmd v) = .next t) ∨
    (∃ r v, op = .regWrite r.toOffset 4 v ∧ r ≠ .cmd ∧ t = s.writeReg r v) ∨
    (∃ off v, op = .regWrite off 4 v ∧ 0x1C ≤ off ∧ off < 64 ∧ off % 4 = 0 ∧ t = s) ∨
    (∃ off, op = .pbufRead off ∧ off < s.bufCap ∧ t = s.respond (.byte (s.pbufByte off))) ∨
    (∃ off v, op = .pbufWrite off v ∧ off < s.bufCap ∧ t = { s with pbuf := s.pbuf.write off v }) ∨
    (op = .reset ∧ t = s.applyReset) := by
  cases op with
  | regRead off size =>
    obtain ⟨h1, rfl, h2, h⟩ := admitRegister_next hop
    clear hop
    unfold hostRegRead at h
    split at h <;> exact .inl ⟨off, _, rfl, h1, h2, by simpa using h.symm⟩
  | regWrite off size v =>
    obtain ⟨h1, rfl, h2, h⟩ := admitRegister_next hop
    clear hop
    unfold hostRegWrite at h
    split at h
    · rename_i ho
      rw [ofOffset_eq_some] at ho
      subst ho
      exact .inr (.inl ⟨v, rfl, h⟩)
    · rename_i r hr ho
      rw [ofOffset_eq_some] at ho
      subst ho
      exact .inr (.inr (.inl ⟨r, v, rfl, by rintro rfl; exact hr rfl, by simpa using h.symm⟩))
    · rename_i ho
      refine .inr (.inr (.inr (.inl ⟨off, v, rfl, ?_, h1, h2, by simpa using h.symm⟩)))
      by_contra hc
      have : off = 0 ∨ off = 4 ∨ off = 8 ∨ off = 12 ∨ off = 16 ∨ off = 20 ∨ off = 24 := by omega
      rcases this with rfl | rfl | rfl | rfl | rfl | rfl | rfl <;> cases ho
  | pbufRead off =>
    obtain ⟨h1, h⟩ := admitPbuf_next hop
    exact .inr (.inr (.inr (.inr (.inl ⟨off, rfl, h1, by simpa using h.symm⟩))))
  | pbufWrite off v =>
    obtain ⟨h1, h⟩ := admitPbuf_next hop
    exact .inr (.inr (.inr (.inr (.inr (.inl ⟨off, v, rfl, h1, by simpa using h.symm⟩)))))
  | reset => exact .inr (.inr (.inr (.inr (.inr (.inr ⟨rfl, by simpa [hostStep] using hop.symm⟩)))))

end Sys2Proof.Machine
end

