-- ==== Sys2Proof/Tests/Slice0.lean ====
section
/-! SUPPORT. The model's own tests: words written out from the spec's encodings, its test vectors, and one small
state each for the host port. Expected results come from spec/, each test says from where. -/

namespace Sys2Proof.Tests

open Sys2Proof.Machine

/-! WellFormed refuses an ill-formed term for each of its checks. -/

/-- TB is an 8-bit field (30_encoding.md R54). -/
theorem test_wellFormed_refuses_tb_256 : ¬ (Instr.encU8 true 256 1 false).WellFormed := by decide

/-- VC is an 8-bit field (30_encoding.md R54). -/
theorem test_wellFormed_refuses_vc_256 : ¬ (Instr.decU8 1 256 false).WellFormed := by decide

theorem test_wellFormed_admits_255 : (Instr.encU8 true 255 255 true).WellFormed := by decide

/-! Decoding: the words are written out field by field, OP VT V TB VC SG RSV (30_encoding.md R50), one for each
constructor. -/

theorem test_decode_encI32 :
    decode 0b0001_000_1_00000010_00000001_1_0000000#32 = .command (.encI32 true 2 1 true) := by decide

theorem test_decode_encF32 :
    decode 0b0001_001_0_00001000_00000010_1_0000000#32 = .command (.encF32 false 8 2 true) := by decide

theorem test_decode_encU8 :
    decode 0b0001_010_1_00000001_00000001_0_0000000#32 = .command (.encU8 true 1 1 false) := by decide

theorem test_decode_encU16 :
    decode 0b0001_011_1_00000010_00000001_0_0000000#32 = .command (.encU16 true 2 1 false) := by decide

theorem test_decode_encU32 :
    decode 0b0001_100_0_00000100_00000001_0_0000000#32 = .command (.encU32 false 4 1 false) := by decide

theorem test_decode_decI32 :
    decode 0b0010_000_0_00000110_00000010_1_0000000#32 = .command (.decI32 6 2 true) := by decide

theorem test_decode_decF32 :
    decode 0b0010_001_0_00001000_00000010_1_0000000#32 = .command (.decF32 8 2 true) := by decide

theorem test_decode_decU8 :
    decode 0b0010_010_0_11111111_00000000_0_0000000#32 = .command (.decU8 255 0 false) := by decide

theorem test_decode_decU16 :
    decode 0b0010_011_0_00000010_00000001_0_0000000#32 = .command (.decU16 2 1 false) := by decide

theorem test_decode_decU32 :
    decode 0b0010_100_0_00000100_00000001_0_0000000#32 = .command (.decU32 4 1 false) := by decide

/-- The decoder's numbering is the opcode table's: bit 31 is the top bit of OP. -/
theorem test_decodeTableWord : decodeTableWord 32 0x13020180 = some (.encF32 true 2 1 true) := by decide

/-- The example words of 30_encoding.md R61. -/
theorem test_encode_examples :
    encode (.encF32 true 2 1 true) = 0x13020180#32 ∧ encode (.decF32 8 2 true) = 0x22080280#32
      ∧ encode (.encU32 false 4 1 false) = 0x18040100#32 := by decide

/-- The assembler text of those words (30_encoding.md R61). -/
theorem test_text :
    (Instr.encF32 true 2 1 true).text = "ENC.F32 2, 1, S, V" ∧ (Instr.decF32 8 2 true).text = "DEC.F32 8, 2, S"
      ∧ (Instr.encU32 false 4 1 false).text = "ENC.U32 4, 1, U, INV" := by decide +kernel

/-! One command each, on a buffer of 8 bytes. -/

/-- The reset state with a buffer of 8 bytes. -/
def small : State := { State.reset with bufTop := 7#16 }

/-- An encode vector: the word, SCALE, VIN, OFFSET and the bytes written there. -/
structure EncVector where
  word : Nat
  scale : Nat
  vin : Nat
  offset : Nat
  bytes : List Byte

/-- The encode writes exactly these bytes, sets NBYTES to their number and leaves STATUS alone. -/
def EncVector.holds (x : EncVector) : Bool :=
  let s := { small with
    scale := BitVec.ofNat 32 x.scale, vin := BitVec.ofNat 32 x.vin, offset := BitVec.ofNat 16 x.offset }
  match step (s.withFetchWord 32 x.word) with
  | .next t =>
    t.pbuf == s.pbuf.writeBytes x.offset x.bytes && t.nbytes.toNat == x.bytes.length
      && t.readReg .status == 0#32 && t.cmd.toNat == x.word
  | _ => false

/-- A decode vector: the word, SCALE, OFFSET, the bytes of the field, VOUT and VALID. -/
structure DecVector where
  word : Nat
  scale : Nat
  offset : Nat
  bytes : List Byte
  vout : Nat
  valid : Bool

/-- The decode gives this VOUT and VALID, starting from the opposite VALID, and writes no byte. -/
def DecVector.holds (x : DecVector) : Bool :=
  let s := { small with
    scale := BitVec.ofNat 32 x.scale, offset := BitVec.ofNat 16 x.offset, vout := 0x55555555#32,
    valid := !x.valid, pbuf := Memory.writeBytes [] x.offset x.bytes }
  match step (s.withFetchWord 32 x.word) with
  | .next t =>
    t.vout.toNat == x.vout && t.readReg .status == (if x.valid then 1#32 else 0#32)
      && t.nbytes.toNat == x.bytes.length && t.pbuf == s.pbuf
  | _ => false

/-- A faulting word: SCALE, VIN, OFFSET and the fault code it records. -/
structure FaultVector where
  word : Nat
  scale : Nat
  vin : Nat
  offset : Nat
  code : Nat

/-- The command faults: STATUS reads (code << 4) | 2, NBYTES is 0 and PBUF and VOUT are as before. -/
def FaultVector.holds (x : FaultVector) : Bool :=
  let s := { small with
    scale := BitVec.ofNat 32 x.scale, vin := BitVec.ofNat 32 x.vin, offset := BitVec.ofNat 16 x.offset,
    nbytes := 4#3, vout := 0x55555555#32 }
  match step (s.withFetchWord 32 x.word) with
  | .next t =>
    (t.readReg .status).toNat == x.code * 16 + 2 && t.nbytes == 0#3 && t.pbuf == s.pbuf && t.vout == s.vout
      && t.cmd.toNat == x.word
  | _ => false

/-- Vectors E-I32-1 to E-I32-11 of 95_test_vectors.md. -/
def encI32Vectors : List EncVector :=
  [
    ⟨0x11010180, 0x3F800000, 0xFFFFFF85, 0, [0x85]⟩,
    ⟨0x11040180, 0x3F800000, 0x12345678, 0, [0x12, 0x34, 0x56, 0x78]⟩,
    ⟨0x11020180, 0x3F800000, 0x12345678, 0, [0x56, 0x78]⟩,
    ⟨0x11020180, 0x3F800000, 0x00017F7F, 0, [0x7F, 0x7F]⟩,
    ⟨0x11020100, 0x3F800000, 0xFFFFFFFF, 0, [0xFF, 0xFF]⟩,
    ⟨0x11010180, 0x3F800000, 0x0000007F, 0, [0x7F]⟩,
    ⟨0x11060200, 0x3F800000, 0x00123456, 0, [0x12, 0x34, 0x56]⟩,
    ⟨0x11040180, 0x3F800000, 0x7F7F7F7F, 0, [0x7F, 0x7F, 0x7F, 0x7F]⟩,
    ⟨0x10020180, 0x3F800000, 0x12345678, 0, [0x7F, 0x7F]⟩,
    ⟨0x10060200, 0x3F800000, 0x00000000, 0, [0xFF, 0xFF, 0xFF]⟩,
    ⟨0x11020180, 0x00000000, 0x00000005, 0, [0x00, 0x05]⟩ ]

theorem test_encI32Vectors : encI32Vectors.all EncVector.holds = true := by decide +kernel

/-- Vectors E-F32-1 to E-F32-17 of 95_test_vectors.md. -/
def encF32VectorsA : List EncVector :=
  [
    ⟨0x13020180, 0x42C80000, 0x41BB999A, 0, [0x09, 0x29]⟩,
    ⟨0x13020180, 0x42C80000, 0xC0A80000, 0, [0xFD, 0xF3]⟩,
    ⟨0x13020180, 0x42C80000, 0x80000000, 0, [0x00, 0x00]⟩,
    ⟨0x13020180, 0x42C80000, 0x3BA3D70A, 0, [0x00, 0x00]⟩,
    ⟨0x13020180, 0x42C80000, 0x3C75C28F, 0, [0x00, 0x01]⟩,
    ⟨0x13020180, 0x42C80000, 0x3CCCCCCD, 0, [0x00, 0x03]⟩,
    ⟨0x13020180, 0x3F800000, 0x40200000, 0, [0x00, 0x02]⟩,
    ⟨0x13020180, 0x3F800000, 0x40600000, 0, [0x00, 0x04]⟩,
    ⟨0x13020180, 0x3F800000, 0xC0200000, 0, [0xFF, 0xFE]⟩,
    ⟨0x13020180, 0x42C80000, 0x43A3D5C3, 0, [0x7F, 0xFF]⟩,
    ⟨0x13020180, 0x42C80000, 0x43C80000, 0, [0x9C, 0x40]⟩,
    ⟨0x13020180, 0x42C80000, 0xC3C80000, 0, [0x63, 0xC0]⟩,
    ⟨0x13040180, 0x3F800000, 0x4F32D05E, 0, [0x7F, 0xFF, 0xFF, 0xFF]⟩,
    ⟨0x13040180, 0x3F800000, 0xCF32D05E, 0, [0x80, 0x00, 0x00, 0x00]⟩,
    ⟨0x13040100, 0x3F800000, 0x4F9502F9, 0, [0xFF, 0xFF, 0xFF, 0xFF]⟩,
    ⟨0x13010100, 0x3F800000, 0xBF800000, 0, [0x00]⟩,
    ⟨0x13020180, 0x42C80000, 0x43A331EC, 0, [0x7F, 0x7F]⟩ ]

theorem test_encF32VectorsA : encF32VectorsA.all EncVector.holds = true := by decide +kernel

/-- Vectors E-F32-18 to E-F32-34 of 95_test_vectors.md. -/
def encF32VectorsB : List EncVector :=
  [
    ⟨0x13010100, 0x40233333, 0x42C80000, 0, [0xFF]⟩,
    ⟨0x13010100, 0x40233333, 0x42480000, 0, [0x7F]⟩,
    ⟨0x13040180, 0x3F800000, 0x7F800000, 0, [0x7F, 0xFF, 0xFF, 0xFF]⟩,
    ⟨0x13040180, 0x3F800000, 0xFF800000, 0, [0x80, 0x00, 0x00, 0x00]⟩,
    ⟨0x13020100, 0x3F800000, 0xFF800000, 0, [0x00, 0x00]⟩,
    ⟨0x13020100, 0x3F800000, 0x7F800000, 0, [0xFF, 0xFF]⟩,
    ⟨0x12020180, 0x42C80000, 0x7FC00000, 0, [0x7F, 0x7F]⟩,
    ⟨0x12060280, 0x3F800000, 0x12345678, 0, [0x7F, 0x7F, 0x7F]⟩,
    ⟨0x13040180, 0x00000001, 0x3F800000, 0, [0x00, 0x00, 0x00, 0x00]⟩,
    ⟨0x13080280, 0x461C4000, 0x42360000, 0, [0x00, 0x06, 0xF1, 0x58]⟩,
    ⟨0x13080280, 0x461C4000, 0xC20779A7, 0, [0xFF, 0xFA, 0xD5, 0x00]⟩,
    ⟨0x13080280, 0x461C4000, 0x43173595, 0, [0x00, 0x17, 0x12, 0x9D]⟩,
    ⟨0x13010100, 0x40233333, 0x42C7999A, 0, [0xFE]⟩,
    ⟨0x13030180, 0x40400000, 0x3EAAAAAB, 0, [0x00, 0x00, 0x01]⟩,
    ⟨0x13020180, 0x3F800000, 0x3F000000, 0, [0x00, 0x00]⟩,
    ⟨0x13020180, 0x3F800000, 0xBF000000, 0, [0x00, 0x00]⟩,
    ⟨0x13020180, 0x3F800000, 0x3FC00000, 0, [0x00, 0x02]⟩ ]

theorem test_encF32VectorsB : encF32VectorsB.all EncVector.holds = true := by decide +kernel

/-- Vectors E-U8-1 to E-U8-5 of 95_test_vectors.md. -/
def encU8Vectors : List EncVector :=
  [
    ⟨0x15010100, 0x3F800000, 0xFFFFFF42, 0, [0x42]⟩,
    ⟨0x15010100, 0x3F800000, 0x000000FF, 0, [0xFF]⟩,
    ⟨0x15020180, 0x3F800000, 0x00000080, 0, [0x00, 0x80]⟩,
    ⟨0x15010180, 0x3F800000, 0x0000007F, 0, [0x7F]⟩,
    ⟨0x14010100, 0x3F800000, 0x00000012, 0, [0xFF]⟩ ]

theorem test_encU8Vectors : encU8Vectors.all EncVector.holds = true := by decide +kernel

/-- Vectors E-U16-1 to E-U16-5 of 95_test_vectors.md. -/
def encU16Vectors : List EncVector :=
  [
    ⟨0x17020100, 0x3F800000, 0xABCD1234, 0, [0x12, 0x34]⟩,
    ⟨0x17020100, 0x3F800000, 0x0000FFFF, 0, [0xFF, 0xFF]⟩,
    ⟨0x17020180, 0x3F800000, 0x0000FFFF, 0, [0xFF, 0xFF]⟩,
    ⟨0x17010100, 0x3F800000, 0x00000ABC, 0, [0xBC]⟩,
    ⟨0x16020180, 0x3F800000, 0x00000000, 0, [0x7F, 0x7F]⟩ ]

theorem test_encU16Vectors : encU16Vectors.all EncVector.holds = true := by decide +kernel

/-- Vectors E-U32-1 to E-U32-6 of 95_test_vectors.md. -/
def encU32Vectors : List EncVector :=
  [
    ⟨0x19040100, 0x3F800000, 0xFFFFFFFF, 0, [0xFF, 0xFF, 0xFF, 0xFF]⟩,
    ⟨0x19040180, 0x3F800000, 0xFFFFFFFF, 0, [0xFF, 0xFF, 0xFF, 0xFF]⟩,
    ⟨0x19030100, 0x3F800000, 0xDEADBEEF, 0, [0xAD, 0xBE, 0xEF]⟩,
    ⟨0x18040100, 0x3F800000, 0x12345678, 4, [0xFF, 0xFF, 0xFF, 0xFF]⟩,
    ⟨0x18030180, 0x3F800000, 0x12345678, 0, [0x7F, 0x7F, 0x7F]⟩,
    ⟨0x18010100, 0x3F800000, 0x12345678, 0, [0xFF]⟩ ]

theorem test_encU32Vectors : encU32Vectors.all EncVector.holds = true := by decide +kernel

/-- Vectors D-I32-1 to D-I32-13 of 95_test_vectors.md. -/
def decI32Vectors : List DecVector :=
  [
    ⟨0x20020180, 0x3F800000, 0, [0xFF, 0xFE], 0xFFFFFFFE, true⟩,
    ⟨0x20020100, 0x3F800000, 0, [0xFF, 0xFE], 0x0000FFFE, true⟩,
    ⟨0x20010180, 0x3F800000, 0, [0x80], 0xFFFFFF80, true⟩,
    ⟨0x20010180, 0x3F800000, 0, [0x7F], 0x00000000, false⟩,
    ⟨0x20010100, 0x3F800000, 0, [0x7F], 0x0000007F, true⟩,
    ⟨0x20010180, 0x3F800000, 0, [0xFF], 0xFFFFFFFF, true⟩,
    ⟨0x20030180, 0x3F800000, 0, [0x80, 0x00, 0x00], 0xFF800000, true⟩,
    ⟨0x20030100, 0x3F800000, 0, [0x80, 0x00, 0x00], 0x00800000, true⟩,
    ⟨0x20040100, 0x3F800000, 0, [0xFF, 0xFF, 0xFF, 0xFF], 0x00000000, false⟩,
    ⟨0x20040180, 0x3F800000, 0, [0xFF, 0xFF, 0xFF, 0xFF], 0xFFFFFFFF, true⟩,
    ⟨0x20060280, 0x3F800000, 0, [0x7F, 0x7F, 0x7F], 0x00000000, false⟩,
    ⟨0x20040100, 0x3F800000, 0, [0x7F, 0x7F, 0x7F, 0x7F], 0x7F7F7F7F, true⟩,
    ⟨0x20040100, 0x3F800000, 0, [0xFF, 0xFF, 0xFF, 0xFE], 0xFFFFFFFE, true⟩ ]

theorem test_decI32Vectors : decI32Vectors.all DecVector.holds = true := by decide +kernel

/-- Vectors D-F32-1 to D-F32-12 of 95_test_vectors.md. -/
def decF32VectorsA : List DecVector :=
  [
    ⟨0x22020180, 0x42C80000, 0, [0x09, 0x29], 0x41BB999A, true⟩,
    ⟨0x22020180, 0x42C80000, 0, [0xFD, 0xF3], 0xC0A80000, true⟩,
    ⟨0x22020180, 0x42C80000, 0, [0x9C, 0x40], 0xC37F5C29, true⟩,
    ⟨0x22020100, 0x42C80000, 0, [0x9C, 0x40], 0x43C80000, true⟩,
    ⟨0x22020180, 0x42C80000, 0, [0x7F, 0x7F], 0x00000000, false⟩,
    ⟨0x22020100, 0x42C80000, 0, [0x7F, 0x7F], 0x43A331EC, true⟩,
    ⟨0x22020180, 0x42C80000, 0, [0x80, 0x00], 0xC3A3D70A, true⟩,
    ⟨0x22010100, 0x40233333, 0, [0x7F], 0x42473737, true⟩,
    ⟨0x22010100, 0x40233333, 0, [0xFE], 0x42C73737, true⟩,
    ⟨0x22010100, 0x40233333, 0, [0xFF], 0x00000000, false⟩,
    ⟨0x22080280, 0x461C4000, 0, [0x00, 0x06, 0xF1, 0x58], 0x42360000, true⟩,
    ⟨0x22080280, 0x461C4000, 0, [0xFF, 0xFA, 0xD5, 0x00], 0xC20779A7, true⟩ ]

theorem test_decF32VectorsA : decF32VectorsA.all DecVector.holds = true := by decide +kernel

/-- Vectors D-F32-13 to D-F32-23 of 95_test_vectors.md. -/
def decF32VectorsB : List DecVector :=
  [
    ⟨0x22080280, 0x461C4000, 0, [0x00, 0x17, 0x12, 0x9D], 0x43173595, true⟩,
    ⟨0x22080280, 0x461C4000, 0, [0x7F, 0x7F, 0x7F, 0x7F], 0x00000000, false⟩,
    ⟨0x22040100, 0x3F800000, 0, [0xFF, 0xFF, 0xFF, 0xFE], 0x4F800000, true⟩,
    ⟨0x22040180, 0x3F800000, 0, [0x80, 0x00, 0x00, 0x00], 0xCF000000, true⟩,
    ⟨0x22030180, 0x40400000, 0, [0x00, 0x00, 0x01], 0x3EAAAAAB, true⟩,
    ⟨0x22040180, 0x00000001, 0, [0x00, 0x00, 0x00, 0x02], 0x7F800000, true⟩,
    ⟨0x22030180, 0x3F800000, 0, [0x7F, 0x7F, 0x7F], 0x00000000, false⟩,
    ⟨0x22030180, 0x3F800000, 0, [0xFF, 0xFF, 0xFF], 0xBF800000, true⟩,
    ⟨0x22020180, 0x461C4000, 0, [0x00, 0x01], 0x38D1B717, true⟩,
    ⟨0x22010100, 0x40233333, 0, [0x00], 0x00000000, true⟩,
    ⟨0x22010180, 0x40233333, 0, [0x7F], 0x00000000, false⟩ ]

theorem test_decF32VectorsB : decF32VectorsB.all DecVector.holds = true := by decide +kernel

/-- Vectors D-U8-1 to D-U8-5 of 95_test_vectors.md. -/
def decU8Vectors : List DecVector :=
  [
    ⟨0x24010180, 0x3F800000, 0, [0x80], 0x00000080, true⟩,
    ⟨0x24010100, 0x3F800000, 0, [0xFF], 0x00000000, false⟩,
    ⟨0x24010100, 0x3F800000, 0, [0x7F], 0x0000007F, true⟩,
    ⟨0x24010180, 0x3F800000, 0, [0x7F], 0x00000000, false⟩,
    ⟨0x24010100, 0x3F800000, 3, [0x42], 0x00000042, true⟩ ]

theorem test_decU8Vectors : decU8Vectors.all DecVector.holds = true := by decide +kernel

/-- Vectors D-U16-1 to D-U16-4 of 95_test_vectors.md. -/
def decU16Vectors : List DecVector :=
  [
    ⟨0x26020180, 0x3F800000, 0, [0xFF, 0xFF], 0x0000FFFF, true⟩,
    ⟨0x26020100, 0x3F800000, 0, [0xFF, 0xFF], 0x00000000, false⟩,
    ⟨0x26010180, 0x3F800000, 0, [0x80], 0x0000FF80, true⟩,
    ⟨0x26020100, 0x3F800000, 0, [0x12, 0x34], 0x00001234, true⟩ ]

theorem test_decU16Vectors : decU16Vectors.all DecVector.holds = true := by decide +kernel

/-- Vectors D-U32-1 to D-U32-5 of 95_test_vectors.md. -/
def decU32Vectors : List DecVector :=
  [
    ⟨0x28040100, 0x3F800000, 0, [0xDE, 0xAD, 0xBE, 0xEF], 0xDEADBEEF, true⟩,
    ⟨0x28030100, 0x3F800000, 0, [0xFF, 0xFF, 0xFF], 0x00000000, false⟩,
    ⟨0x28030180, 0x3F800000, 0, [0xFF, 0xFF, 0xFF], 0xFFFFFFFF, true⟩,
    ⟨0x28030180, 0x3F800000, 0, [0x80, 0x00, 0x00], 0xFF800000, true⟩,
    ⟨0x28040180, 0x3F800000, 0, [0x7F, 0x7F, 0x7F, 0x7F], 0x00000000, false⟩ ]

theorem test_decU32Vectors : decU32Vectors.all DecVector.holds = true := by decide +kernel

/-- Vectors F-1 to F-28 of 95_test_vectors.md, less F-15, which completes, at a capacity of 8. Vector F-13 is
0x21090100, OP = 2 with V = 1, so the check order of R94 makes it F_RSV (log entry 7). -/
def faultVectors : List FaultVector :=
  [
    ⟨0x00000000, 0x3F800000, 0x0, 0, 1⟩,
    ⟨0x30020180, 0x3F800000, 0x0, 0, 1⟩,
    ⟨0xF3020180, 0x3F800000, 0x0, 0, 1⟩,
    ⟨0x1A020180, 0x3F800000, 0x0, 0, 2⟩,
    ⟨0x2E020100, 0x3F800000, 0x0, 0, 2⟩,
    ⟨0x13020181, 0x42C80000, 0x0, 0, 3⟩,
    ⟨0x23020180, 0x42C80000, 0x0, 0, 3⟩,
    ⟨0x1A000181, 0x3F800000, 0x0, 0, 2⟩,
    ⟨0x13030280, 0x42C80000, 0x0, 0, 4⟩,
    ⟨0x13020080, 0x42C80000, 0x0, 0, 4⟩,
    ⟨0x13000180, 0x00000000, 0x0, 0, 4⟩,
    ⟨0x130A0280, 0x42C80000, 0x0, 0, 4⟩,
    ⟨0x21090100, 0x3F800000, 0x0, 0, 3⟩,
    ⟨0x13020180, 0x42C80000, 0x0, 7, 5⟩,
    ⟨0x22040180, 0x3F800000, 0x0, 8, 5⟩,
    ⟨0x24020100, 0x3F800000, 0x0, 0, 6⟩,
    ⟨0x26030100, 0x3F800000, 0x0, 0, 6⟩,
    ⟨0x26040180, 0x3F800000, 0x0, 0, 6⟩,
    ⟨0x24020100, 0x3F800000, 0x0, 7, 5⟩,
    ⟨0x13020180, 0x00000000, 0x0, 0, 7⟩,
    ⟨0x13020180, 0xBF800000, 0x0, 0, 7⟩,
    ⟨0x12020180, 0x7F800000, 0x0, 0, 7⟩,
    ⟨0x22020180, 0x7FC00000, 0x0, 0, 7⟩,
    ⟨0x22020180, 0x80000000, 0x0, 0, 7⟩,
    ⟨0x13020180, 0x42C80000, 0x7FC00000, 0, 8⟩,
    ⟨0x13020180, 0x42C80000, 0xFF800001, 0, 8⟩,
    ⟨0x13020180, 0x00000000, 0x7FC00000, 0, 7⟩ ]

theorem test_faultVectors : faultVectors.all FaultVector.holds = true := by decide +kernel
/-! The fault state and the host port. -/

/-- A word encoding a command that completes at the end of the buffer (vector F-15). -/
theorem test_last_two_bytes :
    EncVector.holds ⟨0x13020180, 0x42C80000, 0x41BB999A, 6, [0x09, 0x29]⟩ = true := by decide +kernel

/-- A second fault keeps the first cause (vector F-29: STATUS is 0x63 before and after). -/
theorem test_first_cause_kept :
    let s := { small with valid := true, fault := true, fcause := 6#4, scale := 0x42C80000#32, vin := 0x7FC00000#32 }
    (match step (s.withFetchWord 32 0x13020180) with
      | .next t => t.readReg .status == 0x63#32
      | _ => false) = true := by decide +kernel

/-- The state left by vector F-29. -/
def faulted : State := { small with valid := true, fault := true, fcause := 6#4 }

/-- A STATUS write with bit 1 set clears FAULT and FCAUSE and keeps VALID (vector F-30). -/
theorem test_status_clear :
    (match step { faulted with pending := [wr .status 0x00000002#32] } with
      | .next t => t.readReg .status == 0x01#32
      | _ => false) = true := by decide +kernel

/-- A STATUS write with bit 1 clear has no effect (vector F-31). -/
theorem test_status_write_ignored :
    (match step { faulted with pending := [wr .status 0x000000F1#32] } with
      | .next t => t.readReg .status == 0x63#32
      | _ => false) = true := by decide +kernel

/-- A command completes while FAULT is 1, and does not clear it (vector F-32). -/
theorem test_command_after_fault :
    let s := { small with fault := true, fcause := 1#4, vin := 5#32 }
    (match step (s.withFetchWord 32 0x11020180) with
      | .next t => t.readReg .status == 0x12#32 && t.nbytes == 2#3 && t.pbuf == [(0, 0x00#8), (1, 0x05#8)]
      | _ => false) = true := by decide +kernel

/-- OFFSET keeps 16 bits (10_state.md R23). -/
theorem test_offset_keeps_16_bits :
    (match step { small with pending := [wr .offset 0xABCD1234#32] } with
      | .next t => t.readReg .offset == 0x00001234#32
      | _ => false) = true := by decide

/-- A reserved offset reads as zero (10_state.md R17). -/
theorem test_reserved_reads_zero :
    (match step { small with cmd := 0xFFFFFFFF#32, pending := [.regRead 0x3C 4] } with
      | .next t => t.returned == [.word 0#32]
      | _ => false) = true := by decide

/-- A byte access to the window is refused (10_state.md R17). -/
theorem test_byte_access_refused :
    (match step { small with pending := [.regRead 0x08 1] } with
      | .refused .registerSize => true
      | _ => false) = true := by decide

/-- The host reads back the byte it wrote (20_memory.md R46). -/
theorem test_pbuf_write_read :
    (match Sys2Proof.core.run 2 { small with pending := [.pbufWrite 7 0xA5#8, .pbufRead 7] } with
      | .next t => t.returned == [.byte 0xA5#8]
      | _ => false) = true := by decide +kernel

/-! Witnesses: for each statement of Certificates/Slice0/Obligations.lean with hypotheses, a concrete state and
operands that meet them all, for each of its clauses at a boundary value. -/

/-- A legal state no run from reset starts in: a fault is recorded, PBUF holds two bytes, VOUT is valid. -/
def used : State :=
  { small with cmd := 0x22020180#32, valid := true, fault := true, fcause := 8#4, scale := 0x42C80000#32,
               vin := 0x41BB999A#32, offset := 6#16, vout := 0x3F800000#32, nbytes := 4#3,
               pbuf := [(6, 0x09#8), (7, 0x29#8)] }

/-- A state whose last two bytes hold the signed sentinel. -/
def blank : State := { used with pbuf := [(6, 0x7F#8), (7, 0x7F#8)] }

theorem witness_DecodeOfEncode : (Instr.encF32 true 255 255 true).WellFormed := by decide

theorem witness_EncodeOfDecode : decode 0x2AFFFF80#32 ≠ .command (.decU32 255 255 true)
    ∧ decode 0x28FFFF80#32 = .command (.decU32 255 255 true) := by decide

theorem witness_DecodedFieldsAreTheWordsBits : decode 0x1301FF80#32 = .command (.encF32 true 1 255 true) := by decide

theorem witness_DecodeMatchesOpcodeTable :
    decode 0x19040100#32 = .command (.encU32 true 4 1 false)
      ∧ (opcodeRows.filter (fun r => r.accepts 0x19040100#32)).map OpcodeRow.mnemonic = ["ENC.U32"]
      ∧ opcodeRows.filter (fun r => r.accepts 0x29040100#32) = [] := by decide +kernel

theorem witness_NoWordMatchesTwoRows :
    (⟨"DEC.U8", 0x24000000, 0xFF00007F⟩ : OpcodeRow) ∈ opcodeRows
      ∧ (⟨"DEC.U8", 0x24000000, 0xFF00007F⟩ : OpcodeRow).accepts 0x24FFFF80#32 = true := by decide +kernel

/-- Each verdict at the ends of its range (60_exceptions.md R94 gives the order). -/
theorem witness_IllegalWordVerdicts :
    decode 0x00000000#32 = .illegal .fOp ∧ decode 0x3A000001#32 = .illegal .fOp ∧ decode 0xFFFFFFFF#32 = .illegal .fOp
      ∧ decode 0x1A000001#32 = .illegal .fType ∧ decode 0x2F000000#32 = .illegal .fType
      ∧ decode 0x18000001#32 = .illegal .fRsv ∧ decode 0x20000040#32 = .illegal .fRsv
      ∧ decode 0x21000000#32 = .illegal .fRsv := by decide

theorem witness_StepRunsDecodedCommand :
    (used.withFetchWord 32 0x13020180).pending = .regWrite 0x00 4 0x13020180#32 :: []
      ∧ decode 0x13020180#32 = .command (.encF32 true 2 1 true) := by decide

theorem witness_StepOnIllegalWordFaults :
    (used.withFetchWord 32 0x21020180).pending = .regWrite 0x00 4 0x21020180#32 :: []
      ∧ decode 0x21020180#32 = .illegal .fRsv := by decide

theorem witness_StepWaitsForTheHost : used.pending = [] := by decide

theorem witness_ResetInputSetsRegisters :
    { used with pending := [.reset, .regRead 0x08 4] }.pending = .reset :: [.regRead 0x08 4] := by decide

theorem witness_inv_used : used.Inv := ⟨by decide, by decide, by decide, by decide⟩

/-- A legal state that faults again, and one that decodes. -/
theorem witness_StepKeepsStateLegal :
    used.Inv ∧ (∃ t, step (used.withFetchWord 32 0) = .next t)
      ∧ (∃ t, step (used.withFetchWord 32 0x22020180) = .next t) :=
  ⟨witness_inv_used, ⟨_, rfl⟩, ⟨_, rfl⟩⟩

/-- Both sides of the equivalence are met somewhere, and failed somewhere. -/
theorem witness_StepCompletesIffAdmitted :
    (HostOp.regRead 0x3C 4).admitted used = true ∧ (∃ t, step { used with pending := [.regRead 0x3C 4] } = .next t)
      ∧ (HostOp.pbufRead 8).admitted used = false
      ∧ step { used with pending := [.pbufRead 8] } = .fault .outsidePbuf :=
  ⟨by decide, ⟨_, rfl⟩, by decide, rfl⟩

/-- The encode statements: the widest and the narrowest schema at the last offset the field fits, for V = 1 and
V = 0, with the smallest legal SCALE, an infinite input, and a NaN that V = 0 ignores. -/
theorem witness_EncResult :
    Schema 8 2 4 ∧ { used with offset := 4#16 }.cursor + 4 ≤ used.bufCap
      ∧ Schema 255 255 1 ∧ { used with offset := 7#16 }.cursor + 1 ≤ used.bufCap
      ∧ { used with scale := 0x00000001#32 }.ScaleLegal
      ∧ (true = true → isNaN 0x7F800000#32 = false)
      ∧ (false = true → isNaN 0x7FC00000#32 = false) := by decide +kernel

/-- The decode statements on a field that is not the sentinel. -/
theorem witness_DecResult_valid :
    Schema 2 1 2 ∧ (2 ≤ 2) ∧ used.cursor + 2 ≤ used.bufCap ∧ used.FieldIs 2 0x0929#16 ∧ used.ScaleLegal
      ∧ (¬ used.ReadsSentinel 2 true) ∧ (¬ used.ReadsSentinel 2 false) := by decide +kernel

/-- The decode statements on the signed sentinel, which is no unsigned one. -/
theorem witness_DecResult_invalid :
    Schema 2 1 2 ∧ blank.cursor + 2 ≤ blank.bufCap ∧ blank.FieldIs 2 0x7F7F#16 ∧ blank.ScaleLegal
      ∧ blank.ReadsSentinel 2 true ∧ (¬ blank.ReadsSentinel 2 false) := by decide +kernel

/-- DEC.U8: the last byte, read as a value and as the sentinel. -/
theorem witness_DecU8Result :
    Schema 3 3 1 ∧ { blank with offset := 7#16 }.cursor + 1 ≤ blank.bufCap
      ∧ { blank with offset := 7#16 }.FieldIs 1 0x7F#8 ∧ { blank with offset := 7#16 }.ReadsSentinel 1 true
      ∧ (¬ { blank with offset := 7#16 }.ReadsSentinel 1 false) := by decide +kernel

/-- Every clause of the fault order at the edge of its condition. No width fits TB = 5, VC = 1, nor TB = 0, nor
VC = 0; the field at offset 7 is one byte too long and the one at offset 6 fits. -/
theorem witness_CommandFaultsInOrder :
    schemaOk 5 1 = false ∧ schemaOk 0 1 = false ∧ schemaOk 4 0 = false
      ∧ Schema 2 1 2 ∧ used.bufCap < { used with offset := 7#16 }.cursor + 2 ∧ used.cursor + 2 ≤ used.bufCap
      ∧ (Instr.decU8 2 1 false).isEnc = false ∧ (Instr.decU8 2 1 false).valueType.width < 8 * 2
      ∧ (Instr.decU16 3 1 false).valueType.width < 8 * 3
      ∧ (Instr.encF32 false 2 1 true).valueType = .f32
      ∧ (¬ { used with scale := 0x80000000#32 }.ScaleLegal) ∧ (¬ { used with scale := 0x7F800000#32 }.ScaleLegal)
      ∧ used.ScaleLegal ∧ (Instr.encF32 true 2 1 true).isEnc = true ∧ (Instr.encF32 true 2 1 true).validFlag = true
      ∧ isNaN 0x7F800001#32 = true := by decide +kernel

/-- No width at all meets the schema of TB = 5, VC = 1. -/
theorem witness_CommandFaultsInOrder_schema : ∀ w, ¬ Schema 5 1 w := by
  rintro w ⟨-, h, -, h4⟩
  omega

/-- A command that faults, and one that completes while FAULT is 1. -/
theorem witness_NbytesZeroExactlyOnFault :
    (∃ t, step (used.withFetchWord 32 0) = .next t ∧ t.nbytes = 0#3)
      ∧ (∃ t, step (used.withFetchWord 32 0x11020180) = .next t ∧ t.nbytes ≠ 0#3) :=
  ⟨⟨_, rfl, by decide +kernel⟩, ⟨_, rfl, by decide +kernel⟩⟩

/-- FAULT is 1 and the next access is a command, the clearing write, a write that does not clear, or a reset. -/
theorem witness_FirstCauseKeptUntilCleared :
    used.fault = true ∧ (∃ t, step (used.withFetchWord 32 0) = .next t ∧ t.fault = true)
      ∧ (∃ t, step { used with pending := [.regWrite 0x04 4 2#32] } = .next t ∧ t.fault = false)
      ∧ (∃ t, step { used with pending := [.regWrite 0x04 4 0xFFFFFFFD#32] } = .next t ∧ t.fault = true)
      ∧ (∃ t, step { used with pending := [.reset] } = .next t ∧ t.fault = false) :=
  ⟨by decide, ⟨_, rfl, by decide⟩, ⟨_, rfl, by decide⟩, ⟨_, rfl, by decide⟩, ⟨_, rfl, by decide⟩⟩

/-- A decode of the sentinel changes VOUT and VALID. -/
theorem witness_VoutAndValidChangeOnlyByDec :
    ∃ t, step (blank.withFetchWord 32 0x22020180) = .next t ∧ t.vout ≠ blank.vout ∧ t.valid ≠ blank.valid :=
  ⟨_, rfl, by decide +kernel, by decide +kernel⟩

/-- Each operand register does change by the host's write of it. -/
theorem witness_OperandsChangeOnlyByHost :
    (∃ t, step { used with pending := [.regWrite 0x08 4 1#32] } = .next t ∧ t.scale ≠ used.scale)
      ∧ (∃ t, step { used with pending := [.regWrite 0x0C 4 1#32] } = .next t ∧ t.vin ≠ used.vin)
      ∧ (∃ t, step { used with pending := [.regWrite 0x10 4 0xFFFF0001#32] } = .next t ∧ t.offset ≠ used.offset)
      ∧ (∃ t, step { used with pending := [.regWrite 0x00 4 1#32] } = .next t ∧ t.cmd ≠ used.cmd) :=
  ⟨⟨_, rfl, by decide⟩, ⟨_, rfl, by decide⟩, ⟨_, rfl, by decide⟩, ⟨_, rfl, by decide⟩⟩

/-- A byte changes by the host's write and by an encode over it. -/
theorem witness_PbufChangesOnlyInTheField :
    (∃ t, step { used with pending := [.pbufWrite 7 0#8] } = .next t ∧ t.pbufByte 7 ≠ used.pbufByte 7)
      ∧ (∃ t, step (used.withFetchWord 32 0x12020180) = .next t ∧ t.pbufByte 7 ≠ used.pbufByte 7) :=
  ⟨⟨_, rfl, by decide +kernel⟩, ⟨_, rfl, by decide +kernel⟩⟩

theorem witness_FlagsNeverChangeResults :
    ∃ t, exec (.decF32 2 1 true) used = .next t ∧ (Instr.decF32 2 1 true).isEnc = false ∧ t.nbytes ≠ 0#3 :=
  ⟨_, rfl, by decide, by decide +kernel⟩

theorem witness_IntegerCommandsIgnoreScale :
    (Instr.encU16 true 2 1 false).valueType ≠ .f32 ∧ ∃ t, exec (.encU16 true 2 1 false) used = .next t :=
  ⟨by decide, _, rfl⟩

theorem witness_InvalidEncodeIgnoresVin :
    (Instr.encF32 false 2 1 true).validFlag = false ∧ ∃ t, exec (.encF32 false 2 1 true) used = .next t :=
  ⟨by decide, _, rfl⟩

theorem witness_RepeatedCommandChangesNothing :
    used.pbuf.wf ∧ ∃ t, exec (.encF32 true 2 1 true) used = .next t ∧ t.nbytes ≠ 0#3 :=
  ⟨by decide, _, rfl, by decide +kernel⟩

/-- ENC.F32 with V = 0, decoded as U16. -/
theorem witness_InvalidRoundTrip :
    ∃ a b, exec (encOf .f32 false 2 1 true) used = .next a ∧ a.nbytes ≠ 0#3
      ∧ exec (decOf .u16 2 1 true) a = .next b ∧ b.nbytes ≠ 0#3 :=
  ⟨_, _, rfl, by decide +kernel, rfl, by decide +kernel⟩

/-- The ends of the signed and the unsigned 2-byte range, at the last offset; 0xFFFE is the greatest unsigned value
that is not the sentinel. -/
theorem witness_IntegerRoundTrip :
    Schema 2 1 2 ∧ used.cursor + 2 ≤ used.bufCap
      ∧ (-2 ^ (8 * 2 - 1) ≤ (0xFFFF8000#32).toInt ∧ (0xFFFF8000#32).toInt ≤ 2 ^ (8 * 2 - 1) - 1)
      ∧ (-2 ^ (8 * 2 - 1) ≤ (0x00007FFF#32).toInt ∧ (0x00007FFF#32).toInt ≤ 2 ^ (8 * 2 - 1) - 1)
      ∧ (¬ ∀ k < 2, (0xFFFF8000#32).extractLsb' (8 * k) 8 = 0x7F#8)
      ∧ (¬ ∀ k < 2, (0x00007FFF#32).extractLsb' (8 * k) 8 = 0x7F#8)
      ∧ (0x0000FFFE#32).toNat ≤ 2 ^ (8 * 2) - 1
      ∧ (¬ ∀ k < 2, (0x0000FFFE#32).extractLsb' (8 * k) 8 = 0xFF#8) := by decide +kernel

/-- 23.45 at scale 100 in 2 signed bytes: n is 2345 and nothing was clamped (40_datapath.md R72). -/
theorem witness_FloatRoundTrip :
    Schema 2 1 2 ∧ used.cursor + 2 ≤ used.bufCap ∧ used.ScaleLegal ∧ isNaN used.vin = false
      ∧ fixInt used.vin used.scale true = 2345
      ∧ (-2 ^ (8 * 2 - 1) ≤ (2345 : Int) ∧ (2345 : Int) ≤ 2 ^ (8 * 2 - 1) - 1)
      ∧ (¬ ∀ k < 2, (BitVec.ofInt 32 2345).extractLsb' (8 * k) 8 = 0x7F#8)
      ∧ isInf used.vin = false ∧ rneInt (f32val used.vin * f32val used.scale) = 2345 := by decide +kernel

/-- Adjacent fields, on either side. -/
theorem witness_DisjointFieldsDoNotInterfere :
    (Instr.decI32 2 1 true).isEnc = false ∧ (Instr.encI32 true 4 1 true).isEnc = true ∧ Schema 2 1 2 ∧ Schema 4 1 4
      ∧ (6#16).toNat + 2 ≤ (8#16).toNat ∧ (2#16).toNat + 4 ≤ (6#16).toNat
      ∧ ∃ t a b, exec (.encI32 true 4 1 true) { used with offset := 2#16 } = .next t
          ∧ exec (.decI32 2 1 true) { used with offset := 6#16 } = .next a
          ∧ exec (.decI32 2 1 true) { t with offset := 6#16 } = .next b :=
  ⟨by decide, by decide, by decide, by decide, by decide, by decide, _, _, _, rfl, rfl, rfl⟩

/-- I32 and U32 0x00017F7F and U16 0xABCD7F7F in 2 signed bytes, U8 0xFFFFFFFF in 1 unsigned byte, and 326.39 at
scale 100 (40_datapath.md R77; 41_encode.md R81, R82). U16 and U8 are the narrowest output types for 2 and 1 bytes. -/
theorem witness_CollidingValueDecodesInvalid :
    Schema 2 1 2 ∧ used.cursor + 2 ≤ used.bufCap ∧ 8 * 2 ≤ ValueType.u16.width ∧ 8 * 1 ≤ ValueType.u8.width
      ∧ Schema 1 1 1 ∧ { used with offset := 7#16 }.cursor + 1 ≤ used.bufCap
      ∧ (∀ k < 2, (0x00017F7F#32).extractLsb' (8 * k) 8 = 0x7F#8)
      ∧ (∀ k < 2, (BitVec.ofNat 32 ((0xABCD7F7F#32).toNat % 2 ^ 16)).extractLsb' (8 * k) 8 = 0x7F#8)
      ∧ (∀ k < 1, (BitVec.ofNat 32 ((0xFFFFFFFF#32).toNat % 2 ^ 8)).extractLsb' (8 * k) 8 = 0xFF#8)
      ∧ used.ScaleLegal ∧ isNaN 0x43A331EC#32 = false
      ∧ (∀ k < 2, (fix 0x43A331EC#32 used.scale true).extractLsb' (8 * k) 8 = 0x7F#8) := by decide +kernel

/-- A subnormal and the greatest finite pattern. -/
theorem witness_F32ValueOfPattern : f32Exp 0x807FFFFF#32 ≠ 255 ∧ f32Exp 0x7F7FFFFF#32 ≠ 255 := by decide

/-- The nearest integers to 5/2 are 2 and 3: two equally near, and the even one is taken (40_datapath.md R73). -/
theorem witness_IntegerRoundingIsNearestEven :
    (3 : ℤ) ≠ rneInt (5 / 2) ∧ |(5 / 2 : ℚ) - (3 : ℤ)| = |(5 / 2 : ℚ) - rneInt (5 / 2)| := by decide +kernel

/-- Each clause at its edge: 0; the least magnitude that overflows, either sign; and 2^24 + 1, which lies halfway
between the neighbours 2^24 and 2^24 + 2 (40_datapath.md R74). -/
theorem witness_Binary32RoundingIsNearestEven :
    (0 : ℚ) = 0 ∧ (2 ^ 128 - 2 ^ 103 : ℚ) ≤ |2 ^ 128 - 2 ^ 103| ∧ (0 : ℚ) < 2 ^ 128 - 2 ^ 103
      ∧ (2 ^ 128 - 2 ^ 103 : ℚ) ≤ |-(2 ^ 128 - 2 ^ 103)| ∧ -(2 ^ 128 - 2 ^ 103) < (0 : ℚ)
      ∧ (2 ^ 24 + 1 : ℚ) ≠ 0 ∧ |(2 ^ 24 + 1 : ℚ)| < 2 ^ 128 - 2 ^ 103 ∧ f32Exp 0x4B800001#32 ≠ 255
      ∧ f32val 0x4B800001#32 ≠ f32val (rneF32 (2 ^ 24 + 1))
      ∧ |(2 ^ 24 + 1 : ℚ) - f32val 0x4B800001#32| = |(2 ^ 24 + 1 : ℚ) - f32val (rneF32 (2 ^ 24 + 1))| := by
  decide +kernel

/-- An infinite input, a finite one, and a tie: -5/2 rounds to -2 (40_datapath.md R72). -/
theorem witness_FixRoundsTheExactProductOnce :
    isNaN 0xFF800000#32 = false ∧ isInf 0xFF800000#32 = true ∧ scaleOk 0x7F7FFFFF#32 = true
      ∧ isNaN 0xC0200000#32 = false ∧ isInf 0xC0200000#32 = false ∧ scaleOk 0x3F800000#32 = true
      ∧ |f32val 0xC0200000#32 * f32val 0x3F800000#32 - (-2 : ℤ)| = 1 / 2 := by decide +kernel

/-- The smallest legal SCALE makes 2 overflow (95_test_vectors.md D-F32-18). -/
theorem witness_UnfixZeroAndOverflow :
    scaleOk 0x00000001#32 = true ∧ (2 : ℤ) ≠ 0 ∧ |(2 : ℤ)| < 2 ^ 32 ∧ isInf (unfix 2 0x00000001#32) = true := by
  decide +kernel

theorem witness_ReassemblyRange : (1 ≤ 1 ∧ 1 ≤ 4) ∧ (1 ≤ 4 ∧ 4 ≤ 4) := by decide

/-- Every offset of the window, read. -/
theorem witness_HostReadsRegisters :
    ∀ off ∈ [0x00, 0x04, 0x08, 0x0C, 0x10, 0x14, 0x18, 0x1C, 0x3C],
      { used with pending := [.regRead off 4] }.pending = .regRead off 4 :: [] ∧ off < 64 ∧ off % 4 = 0 := by decide

/-- Every offset of the window, written; STATUS with bit 1 set and clear. -/
theorem witness_HostWritesRegisters :
    (∀ off ∈ [0x04, 0x08, 0x0C, 0x10, 0x14, 0x18, 0x1C, 0x3C],
      { used with pending := [.regWrite off 4 2#32] }.pending = .regWrite off 4 2#32 :: [] ∧ off < 64 ∧ off % 4 = 0)
      ∧ (2#32).getLsbD 1 = true ∧ (0xFFFFFFFD#32).getLsbD 1 = false := by decide

/-- The first offset past the window, a 16-bit access at the last one, and a word access that is not aligned. -/
theorem witness_RegisterAccessesNotAdmitted :
    (∀ p ∈ [(64, 4), (64, 1), (63, 2), (0, 1), (0, 8), (1, 4), (62, 4)],
      { used with pending := [.regRead p.1 p.2] }.pending = .regRead p.1 p.2 :: [])
      ∧ 64 ≤ 64 ∧ (63 < 64 ∧ 2 ≠ 4) ∧ (62 < 64 ∧ 4 = 4 ∧ 62 % 4 ≠ 0) := by decide

/-- The last byte of PBUF, and the first offset past it. -/
theorem witness_HostAccessesPbuf :
    { used with pending := [.pbufWrite 7 1#8] }.pending = .pbufWrite 7 1#8 :: [] ∧ 7 < used.bufCap
      ∧ { used with pending := [.pbufRead 7] }.pending = .pbufRead 7 :: []
      ∧ { used with pending := [.pbufRead 8] }.pending = .pbufRead 8 :: [] ∧ used.bufCap ≤ 8 := by decide

end Sys2Proof.Tests
end

section
/-! PROOF. The scope family (00_scope.md): the operand registers and the capacity change only by the host (R8), and
the value of a finite binary32 pattern (R11). -/

namespace Sys2Proof.Machine

/-- A host write of STATUS can clear FAULT and FCAUSE only (10_state.md R20). -/
theorem State.writeReg_status_sameOperands (s : State) (v : Word) : s.SameOperands (s.writeReg .status v) := by
  simp only [State.writeReg]
  split <;> exact ⟨rfl, rfl, rfl, rfl, rfl, rfl, rfl, rfl⟩

@[simp] theorem State.writeReg_bufTop (s : State) (r : Reg) (v : Word) : (s.writeReg r v).bufTop = s.bufTop := by
  cases r with
  | status => exact (s.writeReg_status_sameOperands v).bufTop
  | _ => rfl

/-- Executing a command word, legal or not, writes no operand register, nor CMD (10_state.md R18, R21 to R23). -/
theorem runWord_sameOperands {c : Word} {s t : State} (h : runWord c s = .next t) : s.SameOperands t := by
  obtain ⟨k, rfl⟩ | ⟨i, w, -, -, -, -, rfl⟩ | ⟨i, w, -, -, -, -, rfl⟩ := runWord_cases h
  · exact (s.raise_tookFault k).operands
  · exact s.finishEnc_sameOperands ..
  · exact s.finishDec_sameOperands ..

/-- `op` accounts for every change from `s` to `t` of SCALE, VIN, OFFSET and CMD: each that changed holds the value
`op` wrote to it. -/
structure OperandChangesAreWrites (op : HostOp) (s t : State) : Prop where
  scale : t.scale ≠ s.scale → op = .regWrite 0x08 4 t.scale
  vin : t.vin ≠ s.vin → op = .regWrite 0x0C 4 t.vin
  offset : t.offset ≠ s.offset → ∃ v : Word, op = .regWrite 0x10 4 v ∧ t.offset = v.extractLsb' 0 16
  cmd : t.cmd ≠ s.cmd → op = .regWrite 0x00 4 t.cmd

namespace OperandChangesAreWrites

variable {op : HostOp} {s t : State}

theorem of_unchanged (hscale : t.scale = s.scale) (hvin : t.vin = s.vin) (hoffset : t.offset = s.offset)
    (hcmd : t.cmd = s.cmd) : OperandChangesAreWrites op s t :=
  ⟨(absurd hscale ·), (absurd hvin ·), (absurd hoffset ·), (absurd hcmd ·)⟩

theorem of_writeReg (s : State) (r : Reg) (v : Word) :
    OperandChangesAreWrites (.regWrite r.toOffset 4 v) s (s.writeReg r v) := by
  cases r with
  | cmd => exact ⟨(absurd rfl ·), (absurd rfl ·), (absurd rfl ·), fun _ => rfl⟩
  | scale => exact ⟨fun _ => rfl, (absurd rfl ·), (absurd rfl ·), (absurd rfl ·)⟩
  | vin => exact ⟨(absurd rfl ·), fun _ => rfl, (absurd rfl ·), (absurd rfl ·)⟩
  | offset =>
    have hlow : v.setWidth 16 = v.extractLsb' 0 16 := BitVec.setWidth_eq_extractLsb' (by decide)
    exact ⟨(absurd rfl ·), (absurd rfl ·), fun _ => ⟨v, rfl, hlow⟩, (absurd rfl ·)⟩
  | status =>
    have h := s.writeReg_status_sameOperands v
    exact of_unchanged h.scale h.vin h.offset h.cmd
  | vout | nbytes => exact of_unchanged rfl rfl rfl rfl

/-- What executes after the write keeps the operands, so the write alone still accounts for them. -/
theorem trans_sameOperands {u : State} (h : OperandChangesAreWrites op s u) (hut : u.SameOperands t) :
    OperandChangesAreWrites op s t := by
  obtain ⟨hscale, hvin, hoffset, hcmd⟩ := h
  constructor
  · rwa [hut.scale]
  · rwa [hut.vin]
  · rwa [hut.offset]
  · rwa [hut.cmd]

end OperandChangesAreWrites

/-- BUF_CAP is a parameter of the machine: no host access changes it, reset included (00_scope.md R8). -/
theorem hostStep_bufTop {op : HostOp} {s t : State} (h : hostStep op s = .next t) : t.bufTop = s.bufTop := by
  obtain ⟨_, _, -, -, -, rfl⟩ | ⟨v, -, hrun⟩ | ⟨r, v, -, -, rfl⟩ | ⟨_, _, -, -, -, -, rfl⟩ | ⟨_, -, -, rfl⟩ |
    ⟨_, _, -, -, rfl⟩ | ⟨-, rfl⟩ := hostStep_cases h
  case inr.inl => rw [(runWord_sameOperands hrun).bufTop, State.writeReg_bufTop]
  case inr.inr.inl => exact s.writeReg_bufTop r v
  all_goals rfl

/-- Reset apart, the operand registers and CMD change only as the host's write of them says. -/
theorem hostStep_operandChangesAreWrites {op : HostOp} {s t : State} (h : hostStep op s = .next t)
    (hop : op ≠ .reset) : OperandChangesAreWrites op s t := by
  obtain ⟨_, _, -, -, -, rfl⟩ | ⟨v, rfl, hrun⟩ | ⟨r, v, rfl, -, rfl⟩ | ⟨_, _, -, -, -, -, rfl⟩ | ⟨_, -, -, rfl⟩ |
    ⟨_, _, -, -, rfl⟩ | ⟨hreset, -⟩ := hostStep_cases h
  case inr.inl =>
    exact (OperandChangesAreWrites.of_writeReg s .cmd v).trans_sameOperands (runWord_sameOperands hrun)
  case inr.inr.inl => exact .of_writeReg s r v
  case inr.inr.inr.inr.inr.inr => exact absurd hreset hop
  all_goals exact .of_unchanged rfl rfl rfl rfl

/-- The magnitude of a finite pattern, by arithmetic on its number (00_scope.md R11). -/
theorem f32Mag_eq (b : Word) :
    f32Mag b = if b.toNat / 2 ^ 23 % 256 = 0 then ((b.toNat % 2 ^ 23 : Nat) : ℚ) * 2 ^ (-149 : ℤ)
      else ((2 ^ 23 + b.toNat % 2 ^ 23 : Nat) : ℚ) * 2 ^ (((b.toNat / 2 ^ 23 % 256 : Nat) : ℤ) - 150) := by
  rw [f32Mag, f32Exp_eq, f32Frac_eq, pow2_eq, pow2_eq]

theorem f32val_eq_sign_mul_mag (b : Word) : f32val b = (if b.getLsbD 31 then -1 else 1) * f32Mag b := by
  rw [f32val]
  split
  · rw [neg_one_mul]
  · rw [one_mul]

/-- Settles O31: the one access of the step either leaves an operand register alone or is the host's write of it. -/
theorem operandsChangeOnlyByHost : Obligations.OperandsChangeOnlyByHost := by
  unfold Obligations.OperandsChangeOnlyByHost
  intro s t op rest hp hstep
  rw [step_cons hp] at hstep
  have hbufTop := hostStep_bufTop hstep
  refine ⟨hbufTop, fun hop => ?_⟩
  obtain ⟨hscale, hvin, hoffset, hcmd⟩ := hostStep_operandChangesAreWrites hstep hop
  exact ⟨hscale, hvin, hoffset, hcmd⟩

/-- Settles O42: the model's value is the sign times the magnitude, and both are read off the pattern's number. -/
theorem f32ValueOfPattern : Obligations.F32ValueOfPattern := by
  unfold Obligations.F32ValueOfPattern
  intro b _
  rw [f32val_eq_sign_mul_mag, f32Mag_eq]

end Sys2Proof.Machine
end

section
/-! PROOF. The state family (10_state.md), the host port: what an access of each offset of the window does, which
accesses are admitted, and a CMD write as the execution of its word (R15 to R25). -/

namespace Sys2Proof.Machine

/-! ### The register window -/

theorem ofOffset_reserved {off : Nat} (h : 0x1C ≤ off) : Reg.ofOffset off = none := by
  cases hr : Reg.ofOffset off with
  | none => rfl
  | some r =>
    rw [ofOffset_eq_some] at hr
    cases r <;> simp only [Reg.toOffset] at hr <;> omega

/-- The word a host read finds at an offset of the window: the register there, or 0 (10_state.md R16, R17). -/
def State.windowWord (s : State) (off : Nat) : Word := ((Reg.ofOffset off).map s.readReg).getD 0#32

theorem hostRegRead_eq (off : Nat) (s : State) :
    hostRegRead off s = .next (s.respond (.word (s.windowWord off))) := by
  unfold hostRegRead State.windowWord
  cases Reg.ofOffset off <;> rfl

theorem State.windowWord_reserved (s : State) {off : Nat} (h : 0x1C ≤ off) : s.windowWord off = 0#32 := by
  simp [windowWord, ofOffset_reserved h]

theorem hostRegWrite_toOffset {r : Reg} (hr : r ≠ .cmd) (v : Word) (s : State) :
    hostRegWrite r.toOffset v s = .next (s.writeReg r v) := by
  cases r with
  | cmd => exact absurd rfl hr
  | _ => rfl

theorem hostRegWrite_reserved {off : Nat} (h : 0x1C ≤ off) (v : Word) (s : State) :
    hostRegWrite off v s = .next s := by
  simp [hostRegWrite, ofOffset_reserved h]

theorem hostRegWrite_answers (off : Nat) (v : Word) (s : State) : ∃ t, hostRegWrite off v s = .next t := by
  unfold hostRegWrite
  split
  · exact runWord_answers v _
  · exact ⟨_, rfl⟩
  · exact ⟨_, rfl⟩

theorem toNat_append_eq_add {m n : Nat} (x : BitVec m) (y : BitVec n) :
    (x ++ y).toNat = x.toNat * 2 ^ n + y.toNat := by
  rw [BitVec.toNat_append, ← Nat.shiftLeft_add_eq_or_of_lt y.isLt, Nat.shiftLeft_eq]

/-- STATUS as a number: each flag at the weight of its bit (10_state.md R19). -/
theorem statusWord_toNat (valid fault : Bool) (fcause : BitVec 4) :
    (statusWord valid fault fcause).toNat = valid.toNat + 2 * fault.toNat + 16 * fcause.toNat := by
  simp only [statusWord, toNat_append_eq_add, BitVec.toNat_ofBool, BitVec.toNat_ofNat]
  omega

theorem statusWord_clear : statusWord false false 0#4 = 0#32 := by decide

/-! ### Which accesses are admitted -/

theorem admitRegister_outside {off : Nat} (size : Nat) (m : Host.Outcome State Fault Refusal) (h : 64 ≤ off) :
    admitRegister off size m = .fault .outsideWindow := if_pos h

theorem admitRegister_size {off size : Nat} (m : Host.Outcome State Fault Refusal) (h : off < 64) (hs : size ≠ 4) :
    admitRegister off size m = .refused .registerSize := by
  rw [admitRegister, if_neg (by omega), if_pos hs]

theorem admitRegister_alignment {off : Nat} (m : Host.Outcome State Fault Refusal) (h : off < 64)
    (ha : off % 4 ≠ 0) : admitRegister off 4 m = .refused .registerAlignment := by
  rw [admitRegister, if_neg (by omega), if_neg (by omega), if_pos ha]

/-- A register access with a meaning completes exactly where the window admits it (10_state.md R16, R17). -/
theorem admitRegister_answers_iff {off size : Nat} {m : Host.Outcome State Fault Refusal} (hm : ∃ t, m = .next t) :
    (∃ t, admitRegister off size m = .next t) ↔ off < 64 ∧ size = 4 ∧ off % 4 = 0 := by
  constructor
  · rintro ⟨t, h⟩
    obtain ⟨hwin, hsize, halign, -⟩ := admitRegister_next h
    exact ⟨hwin, hsize, halign⟩
  · rintro ⟨hwin, rfl, halign⟩
    rwa [admitRegister_of m hwin halign]

theorem admitPbuf_answers_iff {off : Nat} {s : State} {m : Host.Outcome State Fault Refusal} (hm : ∃ t, m = .next t) :
    (∃ t, admitPbuf off s m = .next t) ↔ off < s.bufCap := by
  constructor
  · rintro ⟨t, h⟩
    exact (admitPbuf_next h).1
  · intro h
    rwa [admitPbuf_of m h]

/-- A host access completes exactly when the model admits it: what an admitted access means is never a stop. -/
theorem hostStep_answers_iff (op : HostOp) (s : State) : (∃ t, hostStep op s = .next t) ↔ op.admitted s = true := by
  cases op with
  | regRead off size =>
    rw [hostStep, admitRegister_answers_iff ⟨_, hostRegRead_eq off s⟩]
    simp [HostOp.admitted, and_assoc]
  | regWrite off size v =>
    rw [hostStep, admitRegister_answers_iff (hostRegWrite_answers off v s)]
    simp [HostOp.admitted, and_assoc]
  | pbufRead off =>
    rw [hostStep, admitPbuf_answers_iff ⟨_, rfl⟩]
    simp [HostOp.admitted]
  | pbufWrite off v =>
    rw [hostStep, admitPbuf_answers_iff ⟨_, rfl⟩]
    simp [HostOp.admitted]
  | reset => exact ⟨fun _ => rfl, fun _ => ⟨_, rfl⟩⟩

theorem admitted_pending (op : HostOp) (s : State) (rest : List HostOp) :
    op.admitted { s with pending := rest } = op.admitted s := by
  cases op <;> rfl

/-! ### A step on an admitted register access -/

section
variable {s : State} {rest : List HostOp} {off : Nat} {v : Word}

theorem step_regRead (hp : s.pending = .regRead off 4 :: rest) (hwin : off < 64) (halign : off % 4 = 0) :
    step s = .next { s with pending := rest, returned := .word (s.windowWord off) :: s.returned } := by
  rw [step_cons hp, hostStep, admitRegister_of _ hwin halign, hostRegRead_eq]
  rfl

theorem step_regWrite (hp : s.pending = .regWrite off 4 v :: rest) (hwin : off < 64) (halign : off % 4 = 0) :
    step s = hostRegWrite off v { s with pending := rest } := by
  rw [step_cons hp, hostStep, admitRegister_of _ hwin halign]

/-- A write of CMD stores the word and executes it (10_state.md R18). -/
theorem step_cmdWrite (hp : s.pending = .regWrite 0x00 4 v :: rest) :
    step s = runWord v { s with pending := rest, cmd := v } :=
  step_regWrite hp (by decide) (by decide)

end

theorem runWord_command {c : Word} {i : Instr} (h : decode c = .command i) (s : State) :
    runWord c s = exec i s := by
  simp [runWord, h]

theorem runWord_illegal {c : Word} {k : FaultCode} (h : decode c = .illegal k) (s : State) :
    runWord c s = .next (s.raise k) := by
  simp [runWord, h]

/-- Settles O15: an empty list waits, and the head of any other is admitted exactly when it answers. -/
theorem stepCompletesIffAdmitted : Obligations.StepCompletesIffAdmitted := by
  unfold Obligations.StepCompletesIffAdmitted
  intro s
  cases hp : s.pending with
  | nil => simp [step_nil hp]
  | cons op rest =>
    rw [step_cons hp, hostStep_answers_iff, admitted_pending]
    simp

/-- Settles O8: a CMD write executes its word, which is the decoded command. -/
theorem stepRunsDecodedCommand : Obligations.StepRunsDecodedCommand := by
  unfold Obligations.StepRunsDecodedCommand
  intro s rest c i hp hdecode
  rw [step_cmdWrite hp, runWord_command hdecode]

/-- Settles O9: a CMD write executes its word, which raises the fault of the decoder. -/
theorem stepOnIllegalWordFaults : Obligations.StepOnIllegalWordFaults := by
  unfold Obligations.StepOnIllegalWordFaults
  intro s rest c k hp hdecode
  exact ⟨_, by rw [step_cmdWrite hp, runWord_illegal hdecode], State.raise_tookFault _ k⟩

/-- Settles O10: a state with nothing pending is its own next state. -/
theorem stepWaitsForTheHost : Obligations.StepWaitsForTheHost := by
  unfold Obligations.StepWaitsForTheHost
  intro s hp
  exact step_nil hp

/-- Settles O28: a command word either raises a fault, or completes with the field's width, 1 to 4, in NBYTES. -/
theorem nbytesZeroExactlyOnFault : Obligations.NbytesZeroExactlyOnFault := by
  unfold Obligations.NbytesZeroExactlyOnFault
  intro s t rest c hp hstep
  rw [step_cmdWrite hp] at hstep
  obtain ⟨k, rfl⟩ | ⟨i, w, -, -, hschema, -, rfl⟩ | ⟨i, w, -, -, hschema, -, rfl⟩ := runWord_cases hstep
  · obtain ⟨hlow, hhigh⟩ := code_bounds k
    exact ⟨fun _ => ⟨k.code, hlow, hhigh, State.raise_tookFault _ k⟩, (absurd rfl ·)⟩
  · exact ⟨fun hzero => absurd hzero (State.nbytes_ne_zero hschema), fun _ => ⟨rfl, rfl⟩⟩
  · exact ⟨fun hzero => absurd hzero (State.nbytes_ne_zero hschema), fun _ => ⟨rfl, rfl⟩⟩

/-- Settles O50: the word read is the one the window holds at the offset. -/
theorem hostReadsRegisters : Obligations.HostReadsRegisters := by
  unfold Obligations.HostReadsRegisters
  intro s rest off hp hwin halign
  refine ⟨s.windowWord off, step_regRead hp hwin halign, ?cmd, ?status, ?scale, ?vin, ?offset, ?vout, ?nbytes,
    s.windowWord_reserved⟩
  case status =>
    rintro rfl
    exact statusWord_toNat s.valid s.fault s.fcause
  case offset =>
    rintro rfl
    exact BitVec.toNat_setWidth_of_le (by decide : 16 ≤ 32)
  case nbytes =>
    rintro rfl
    exact BitVec.toNat_setWidth_of_le (by decide : 3 ≤ 32)
  all_goals
    rintro rfl
    rfl

/-- Settles O51: a write stores at the register of the offset, and reaches none at a reserved offset. -/
theorem hostWritesRegisters : Obligations.HostWritesRegisters := by
  unfold Obligations.HostWritesRegisters
  intro s rest off v hp hwin halign
  have hstep := step_regWrite hp hwin halign
  have hreg : ∀ r : Reg, r ≠ .cmd → off = r.toOffset → step s = .next ({ s with pending := rest }.writeReg r v) := by
    rintro r hr rfl
    rw [hstep, hostRegWrite_toOffset hr]
  refine ⟨hreg .status (by decide), hreg .scale (by decide), hreg .vin (by decide), fun hoff => ?offset,
    fun hoff => ?readOnly⟩
  case offset =>
    rw [hreg .offset (by decide) hoff, ← BitVec.setWidth_eq_extractLsb' (by decide)]
    rfl
  case readOnly =>
    obtain h | h | h : off = 0x14 ∨ off = 0x18 ∨ 0x1C ≤ off := by omega
    · exact hreg .vout (by decide) h
    · exact hreg .nbytes (by decide) h
    · rw [hstep, hostRegWrite_reserved h]

/-- Settles O52: each stop is the first check of the window that the access fails. -/
theorem registerAccessesNotAdmitted : Obligations.RegisterAccessesNotAdmitted := by
  unfold Obligations.RegisterAccessesNotAdmitted
  intro s rest off size op hop hp
  obtain ⟨m, hm⟩ : ∃ m, step s = admitRegister off size m := by
    rw [step_cons hp]
    obtain rfl | ⟨v, rfl⟩ := hop
    · exact ⟨_, rfl⟩
    · exact ⟨_, rfl⟩
  rw [hm]
  refine ⟨admitRegister_outside size m, admitRegister_size m, ?_⟩
  rintro hwin rfl halign
  exact admitRegister_alignment m hwin halign

end Sys2Proof.Machine
end

section
/-! PROOF. The state family (10_state.md), legal states: reset gives one and every step keeps it (R19, R24, R25,
R27, R31). One lemma for each update a step can make. -/

namespace Sys2Proof.Machine

theorem State.pbufOk_of_empty {s : State} (h : s.pbuf = []) : s.PbufOk := by
  simp [State.PbufOk, Memory.wf_iff, h]

theorem State.reset_inv : State.reset.Inv where
  pbufOk := State.pbufOk_of_empty rfl
  statusOk := by decide
  nbytesOk := by decide
  voutOk _ := rfl

/-- The cause a fault records is a fault code when the one recorded before was (60_exceptions.md R93, R97). -/
theorem recordedCause_bounds {fault : Bool} {fcause : BitVec 4} (h : fault = true → 1#4 ≤ fcause ∧ fcause ≤ 8#4)
    (c : FaultCode) : 1#4 ≤ recordedCause fault fcause c ∧ recordedCause fault fcause c ≤ 8#4 := by
  unfold recordedCause
  split
  · exact h ‹_›
  · exact code_bounds c

namespace State.Inv

variable {s : State}

theorem pending (h : s.Inv) (rest : List HostOp) : { s with pending := rest }.Inv :=
  ⟨h.pbufOk, h.statusOk, h.nbytesOk, h.voutOk⟩

theorem respond (h : s.Inv) (r : Response) : (s.respond r).Inv :=
  ⟨h.pbufOk, h.statusOk, h.nbytesOk, h.voutOk⟩

theorem clearFault (h : s.Inv) : s.clearFault.Inv where
  pbufOk := h.pbufOk
  statusOk := ⟨fun _ => rfl, nofun⟩
  nbytesOk := h.nbytesOk
  voutOk := h.voutOk

theorem writeReg (h : s.Inv) (r : Reg) (v : Word) : (s.writeReg r v).Inv := by
  cases r with
  | status =>
    simp only [State.writeReg]
    split
    · exact h.clearFault
    · exact h
  | _ => exact ⟨h.pbufOk, h.statusOk, h.nbytesOk, h.voutOk⟩

theorem raise (h : s.Inv) (c : FaultCode) : (s.raise c).Inv where
  pbufOk := h.pbufOk
  statusOk := ⟨nofun, fun _ => recordedCause_bounds h.statusOk.2 c⟩
  nbytesOk := (by decide : 0#3 ≤ 4#3)
  voutOk := h.voutOk

theorem pbufWrite (h : s.Inv) {off : Nat} (hoff : off < s.bufCap) (v : Byte) :
    { s with pbuf := s.pbuf.write off v }.Inv where
  pbufOk := by
    obtain ⟨hwf, hcap⟩ := h.pbufOk
    refine ⟨Memory.wf_write hwf off v, fun c hc => ?_⟩
    rcases Memory.mem_write hc with rfl | hc
    · exact hoff
    · exact hcap c hc
  statusOk := h.statusOk
  nbytesOk := h.nbytesOk
  voutOk := h.voutOk

section
variable {tb vc w : Nat}

/-- The width of a legal schema is a legal NBYTES (10_state.md R25). -/
theorem nbytesOk_of_schema (hs : Schema tb vc w) : BitVec.ofNat 3 w ≤ 4#3 := by
  rw [BitVec.le_def, nbytes_of_schema hs]
  exact hs.2.2.2

theorem finishEnc (h : s.Inv) (hs : Schema tb vc w) (hcap : s.cursor + w ≤ s.bufCap) (x : Word) :
    (s.finishEnc w x).Inv where
  pbufOk := by
    obtain ⟨hwf, hin⟩ := h.pbufOk
    refine ⟨Memory.wf_writeBytes hwf _ _, fun c hc => ?_⟩
    rcases Memory.mem_writeBytes hc with ⟨-, hc⟩ | hc
    · rw [beBytes_length] at hc
      exact Nat.lt_of_lt_of_le hc hcap
    · exact hin c hc
  statusOk := h.statusOk
  nbytesOk := nbytesOk_of_schema hs
  voutOk := h.voutOk

/-- A decode leaves a legal state when its output is 0 unless it is valid. -/
theorem finishDec (h : s.Inv) (hs : Schema tb vc w) {valid : Bool} {vout : Word}
    (hvout : valid = false → vout = 0#32) : (s.finishDec w valid vout).Inv :=
  ⟨h.pbufOk, h.statusOk, nbytesOk_of_schema hs, hvout⟩

end

theorem applyReset (s : State) : s.applyReset.Inv where
  pbufOk := State.pbufOk_of_empty rfl
  statusOk := reset_inv.statusOk
  nbytesOk := reset_inv.nbytesOk
  voutOk := reset_inv.voutOk

theorem runWord {c : Word} {t : State} (h : s.Inv) (hrun : runWord c s = .next t) : t.Inv := by
  obtain ⟨k, rfl⟩ | ⟨i, w, -, -, hschema, hcap, rfl⟩ | ⟨i, w, -, -, hschema, -, rfl⟩ := runWord_cases hrun
  · exact h.raise k
  · exact h.finishEnc hschema hcap _
  · refine h.finishDec hschema fun hinvalid => ?_
    rw [Bool.not_eq_false'] at hinvalid
    exact if_pos hinvalid

theorem hostStep {op : HostOp} {t : State} (h : s.Inv) (hop : hostStep op s = .next t) : t.Inv := by
  obtain ⟨_, r, -, -, -, rfl⟩ | ⟨v, -, hrun⟩ | ⟨r, v, -, -, rfl⟩ | ⟨_, _, -, -, -, -, rfl⟩ | ⟨off, -, -, rfl⟩ |
    ⟨off, v, -, hoff, rfl⟩ | ⟨-, rfl⟩ := hostStep_cases hop
  · exact h.respond r
  · exact (h.writeReg .cmd v).runWord hrun
  · exact h.writeReg r v
  · exact h
  · exact h.respond _
  · exact h.pbufWrite hoff v
  · exact applyReset s

end State.Inv

/-- Settles O14: each thing a host access can do keeps a legal state, and waiting changes nothing. -/
theorem stepKeepsStateLegal : Obligations.StepKeepsStateLegal := by
  unfold Obligations.StepKeepsStateLegal
  intro s t hinv hstep
  cases hp : s.pending with
  | nil =>
    rw [step_nil hp] at hstep
    cases hstep
    exact hinv
  | cons op rest =>
    rw [step_cons hp] at hstep
    exact (hinv.pending rest).hostStep hstep

/-- Settles O11: each register read gives its reset value. -/
theorem resetRegisterValues : Obligations.ResetRegisterValues := by
  unfold Obligations.ResetRegisterValues
  decide

/-- Settles O12: the step is `applyReset`, whose registers and bytes are known. -/
theorem resetInputSetsRegisters : Obligations.ResetInputSetsRegisters := by
  unfold Obligations.ResetInputSetsRegisters
  intro s rest hp
  refine ⟨_, step_cons hp, fun r => ?_, State.applyReset_pbufByte _, rfl, rfl, rfl⟩
  cases r with
  | status => exact statusWord_clear
  | _ => rfl

/-- Settles O13: the reset state has no written byte, no fault, and every register 0 that must be. -/
theorem resetStateIsLegal : Obligations.ResetStateIsLegal := State.reset_inv

end Sys2Proof.Machine
end

section
/-! PROOF. The state family (10_state.md), what no command reads: the flags (R26), and SCALE unless the value type is
F32 (R21). -/

namespace Sys2Proof.Machine.State

/-! ### The flags -/

/-- `t` has the output, the count and the buffer of `s`: the results of a command other than STATUS. -/
structure SameResults (s t : State) : Prop where
  vout : t.vout = s.vout
  nbytes : t.nbytes = s.nbytes
  pbuf : t.pbuf = s.pbuf

/-- `s` with other flags in STATUS. -/
def withFlags (s : State) (v f : Bool) (c : BitVec 4) : State := { s with valid := v, fault := f, fcause := c }

section
variable (s : State) (v f : Bool) (c : BitVec 4) (t : ValueType) (tb vc : Nat) (sg : Bool)

theorem encodeSequence_withFlags (ve : Bool) :
    (s.encodeSequence t ve tb vc sg).SameResults
      ((s.withFlags v f c).encodeSequence t ve tb vc sg) := by
  have hcheck : (s.withFlags v f c).encFault t ve tb vc = s.encFault t ve tb vc := rfl
  cases h : s.encFault t ve tb vc with
  | some k =>
    rw [encodeSequence_of_fault h, encodeSequence_of_fault (hcheck.trans h)]
    exact ⟨rfl, rfl, rfl⟩
  | none =>
    rw [encodeSequence_of_none h, encodeSequence_of_none (hcheck.trans h)]
    exact ⟨rfl, rfl, rfl⟩

/-- A decode that completes, which is one with NBYTES not 0, also sets VALID alike. -/
theorem decodeSequence_withFlags :
    (s.decodeSequence t tb vc sg).SameResults
        ((s.withFlags v f c).decodeSequence t tb vc sg)
      ∧ ((s.decodeSequence t tb vc sg).nbytes ≠ 0#3 →
        ((s.withFlags v f c).decodeSequence t tb vc sg).valid
          = (s.decodeSequence t tb vc sg).valid) := by
  have hcheck : (s.withFlags v f c).decFault t tb vc = s.decFault t tb vc := rfl
  cases h : s.decFault t tb vc with
  | some k =>
    rw [decodeSequence_of_fault h, decodeSequence_of_fault (hcheck.trans h)]
    exact ⟨⟨rfl, rfl, rfl⟩, (absurd rfl ·)⟩
  | none =>
    rw [decodeSequence_of_none h, decodeSequence_of_none (hcheck.trans h)]
    exact ⟨⟨rfl, rfl, rfl⟩, fun _ => rfl⟩

end

/-! ### SCALE -/

section
variable {t : ValueType} (ht : t ≠ .f32) (s : State) (x : Word) (tb vc : Nat) (sg : Bool)
include ht

theorem encFault_scale (v : Bool) : { s with scale := x }.encFault t v tb vc = s.encFault t v tb vc := by
  simp [encFault, ht]

theorem decFault_scale : { s with scale := x }.decFault t tb vc = s.decFault t tb vc := by
  simp [decFault, ht]

theorem encPattern_scale (v : Bool) (w : Nat) (vin y : Word) :
    encPattern t v w sg vin x = encPattern t v w sg vin y := by
  simp [encPattern, ht]

theorem decPattern_scale (w : Nat) (u : BitVec (8 * w)) (y : Word) :
    decPattern t w u sg x = decPattern t w u sg y := by
  simp [decPattern, ht]

theorem encodeSequence_scale (v : Bool) :
    { s with scale := x }.encodeSequence t v tb vc sg = { s.encodeSequence t v tb vc sg with scale := x } := by
  have hcheck := encFault_scale ht s x tb vc v
  cases h : s.encFault t v tb vc with
  | some k =>
    rw [encodeSequence_of_fault h, encodeSequence_of_fault (hcheck.trans h)]
    rfl
  | none =>
    rw [encodeSequence_of_none h, encodeSequence_of_none (hcheck.trans h), encPattern_scale ht x sg v _ _ s.scale]
    rfl

theorem decodeSequence_scale :
    { s with scale := x }.decodeSequence t tb vc sg = { s.decodeSequence t tb vc sg with scale := x } := by
  have hcheck := decFault_scale ht s x tb vc
  cases h : s.decFault t tb vc with
  | some k =>
    rw [decodeSequence_of_fault h, decodeSequence_of_fault (hcheck.trans h)]
    rfl
  | none =>
    rw [decodeSequence_of_none h, decodeSequence_of_none (hcheck.trans h), decPattern_scale ht x sg _ _ s.scale]
    rfl

end

end Sys2Proof.Machine.State

namespace Sys2Proof.Machine

/-- Settles O33: neither sequence reads a flag, so both runs raise the same fault or complete alike. -/
theorem flagsNeverChangeResults : Obligations.FlagsNeverChangeResults := by
  unfold Obligations.FlagsNeverChangeResults
  intro i s t v f c hexec
  cases hi : i.isEnc with
  | true =>
    rw [exec_enc hi] at hexec ⊢
    cases hexec
    obtain ⟨hvout, hnbytes, hpbuf⟩ :=
      s.encodeSequence_withFlags v f c i.valueType i.totalBytes i.valueCount i.signed i.validFlag
    exact ⟨_, rfl, hvout, hnbytes, hpbuf, nofun⟩
  | false =>
    rw [exec_dec hi] at hexec ⊢
    cases hexec
    obtain ⟨⟨hvout, hnbytes, hpbuf⟩, hvalid⟩ :=
      s.decodeSequence_withFlags v f c i.valueType i.totalBytes i.valueCount i.signed
    exact ⟨_, rfl, hvout, hnbytes, hpbuf, fun _ => hvalid⟩

/-- Settles O34: the checks and the patterns of an integer command do not read SCALE. -/
theorem integerCommandsIgnoreScale : Obligations.IntegerCommandsIgnoreScale := by
  unfold Obligations.IntegerCommandsIgnoreScale
  intro i s t x htype hexec
  cases hi : i.isEnc with
  | true =>
    rw [exec_enc hi] at hexec ⊢
    cases hexec
    rw [State.encodeSequence_scale htype]
  | false =>
    rw [exec_dec hi] at hexec ⊢
    cases hexec
    rw [State.decodeSequence_scale htype]

end Sys2Proof.Machine
end

section
/-! PROOF. The memory family (20_memory.md): the host's byte accesses of PBUF (R34, R46), what changes a byte (R37,
R38), a command executed twice (R40), and the host's cursor step (R44). -/

namespace Sys2Proof.Machine

/-! ### The host's byte accesses -/

namespace State

theorem pbufByte_pbufWrite_same (s : State) (off : Nat) (b : Byte) :
    { s with pbuf := s.pbuf.write off b }.pbufByte off = b := by
  simp [pbufByte]

theorem pbufByte_pbufWrite_other (s : State) {off a : Nat} (b : Byte) (h : a ≠ off) :
    { s with pbuf := s.pbuf.write off b }.pbufByte a = s.pbufByte a := by
  simp only [pbufByte, Memory.lookup_write_other s.pbuf b h]

end State

theorem admitPbuf_outside {off : Nat} {s : State} (m : Host.Outcome State Fault Refusal) (h : s.bufCap ≤ off) :
    admitPbuf off s m = .fault .outsidePbuf := if_pos h

section
variable {s : State} {rest : List HostOp} {off : Nat} {b : Byte}

theorem step_pbufWrite (hp : s.pending = .pbufWrite off b :: rest) (hoff : off < s.bufCap) :
    step s = .next { s with pending := rest, pbuf := s.pbuf.write off b } := by
  rw [step_cons hp]
  exact admitPbuf_of _ hoff

theorem step_pbufRead (hp : s.pending = .pbufRead off :: rest) (hoff : off < s.bufCap) :
    step s = .next { s with pending := rest, returned := .byte (s.pbufByte off) :: s.returned } := by
  rw [step_cons hp]
  exact admitPbuf_of _ hoff

/-- Past the capacity a byte access stops the machine (10_state.md R27; log entry 5). -/
theorem step_pbuf_outside (hp : s.pending = .pbufWrite off b :: rest ∨ s.pending = .pbufRead off :: rest)
    (hoff : s.bufCap ≤ off) : step s = .fault .outsidePbuf := by
  obtain hp | hp := hp
  · rw [step_cons hp]
    exact admitPbuf_outside _ hoff
  · rw [step_cons hp]
    exact admitPbuf_outside _ hoff

end

/-- Settles O53: the byte is written or read below the capacity, and no byte is past it. -/
theorem hostAccessesPbuf : Obligations.HostAccessesPbuf := by
  unfold Obligations.HostAccessesPbuf
  intro s rest off b
  refine ⟨fun hp hoff => ⟨_, step_pbufWrite hp hoff, ?same, fun a ha => ?other, rfl⟩, step_pbufRead, step_pbuf_outside⟩
  case same => exact State.pbufByte_pbufWrite_same { s with pending := rest } off b
  case other => exact State.pbufByte_pbufWrite_other { s with pending := rest } b ha

/-! ### The cursor step -/

section
variable {s : State} {r : Reg} {rest : List HostOp}

/-- Every register lies in the window at a multiple of 4 (10_state.md R16). -/
theorem toOffset_admitted (r : Reg) : r.toOffset < 64 ∧ r.toOffset % 4 = 0 := by cases r <;> decide

/-- `RD reg` returns what the register reads as (30_encoding.md R62). -/
theorem step_rd (hp : s.pending = rd r :: rest) :
    step s = .next { s with pending := rest, returned := .word (s.readReg r) :: s.returned } := by
  obtain ⟨hwin, halign⟩ := toOffset_admitted r
  rw [step_regRead hp hwin halign, State.windowWord, ofOffset_toOffset]
  rfl

/-- `WR reg, imm32` of a register other than CMD only stores (30_encoding.md R62). -/
theorem step_wr {v : Word} (hr : r ≠ .cmd) (hp : s.pending = wr r v :: rest) :
    step s = .next ({ s with pending := rest }.writeReg r v) := by
  obtain ⟨hwin, halign⟩ := toOffset_admitted r
  rw [step_regWrite hp hwin halign, hostRegWrite_toOffset hr]

end

/-- A run begins with the step of its first state. -/
theorem run_succ_of_step {M : Host.Core} {s t : M.State} (k : Nat) (h : M.step s = .next t) :
    M.run (k + 1) s = M.run k t := by
  rw [Host.Core.run, h]

/-- OFFSET keeps the low 16 bits of the sum the host writes (10_state.md R23, 20_memory.md R44). -/
theorem toNat_offset_add_nbytes (o : BitVec 16) (n : BitVec 3) :
    ((o.setWidth 32 + n.setWidth 32).setWidth 16).toNat = (o.toNat + n.toNat) % 2 ^ 16 := by
  have := o.isLt
  have := n.isLt
  simp only [BitVec.toNat_setWidth, BitVec.toNat_add]
  omega

/-- ADV as a run: two reads, which change no register, then the write of their sum to OFFSET. -/
theorem run_advance (s : State) :
    Sys2Proof.core.run 3 { s with pending := advance s } =
      .next { s with
        offset := (s.offset.setWidth 32 + s.nbytes.setWidth 32).setWidth 16
        pending := []
        returned := .word (s.readReg .offset) :: .word (s.readReg .nbytes) :: s.returned } := by
  rw [run_succ_of_step (M := Sys2Proof.core) 2 (step_rd rfl), run_succ_of_step (M := Sys2Proof.core) 1 (step_rd rfl),
    run_succ_of_step (M := Sys2Proof.core) 0 (step_wr (by decide) rfl)]
  rfl

/-- Settles O54: ADV writes the sum to OFFSET, which keeps its low 16 bits. -/
theorem advanceMovesCursorByNbytes : Obligations.AdvanceMovesCursorByNbytes := by
  unfold Obligations.AdvanceMovesCursorByNbytes
  intro s
  exact ⟨_, run_advance s, toNat_offset_add_nbytes s.offset s.nbytes, rfl⟩

/-! ### What changes a byte -/

@[simp] theorem State.writeReg_pbufByte (s : State) (r : Reg) (v : Word) (a : Nat) :
    (s.writeReg r v).pbufByte a = s.pbufByte a := by
  cases r with
  | status =>
    simp only [State.writeReg]
    split <;> rfl
  | _ => rfl

/-- A byte that an executed command word changes lies in the field of the encode that the word decodes to
(20_memory.md R37). -/
theorem runWord_pbufByte_ne {c : Word} {s t : State} {a : Nat} (h : runWord c s = .next t)
    (ha : t.pbufByte a ≠ s.pbufByte a) :
    ∃ i w, decode c = .command i ∧ i.isEnc = true ∧ Schema i.totalBytes i.valueCount w
      ∧ s.cursor ≤ a ∧ a < s.cursor + w ∧ s.cursor + w ≤ s.bufCap := by
  obtain ⟨k, rfl⟩ | ⟨i, w, hdecode, henc, hschema, hcap, rfl⟩ | ⟨_, _, -, -, -, -, rfl⟩ := runWord_cases h
  · exact absurd rfl ha
  · have hfield : ¬ (a < s.cursor ∨ s.cursor + w ≤ a) := fun hout => ha (s.finishEnc_pbufByte_outside _ hout)
    exact ⟨i, w, hdecode, henc, hschema, by omega, by omega, hcap⟩
  · exact absurd rfl ha

/-- Settles O32: of the accesses, only a PBUF write stores a byte itself, and only a CMD write executes a command. -/
theorem pbufChangesOnlyInTheField : Obligations.PbufChangesOnlyInTheField := by
  unfold Obligations.PbufChangesOnlyInTheField
  intro s t op rest a hp hstep hop ha
  rw [step_cons hp] at hstep
  obtain ⟨_, _, -, -, -, rfl⟩ | ⟨c, rfl, hrun⟩ | ⟨r, v, -, -, rfl⟩ | ⟨_, _, -, -, -, -, rfl⟩ | ⟨_, -, -, rfl⟩ |
    ⟨off, b, rfl, -, rfl⟩ | ⟨hreset, -⟩ := hostStep_cases hstep
  case inr.inl =>
    obtain ⟨i, w, hdecode, henc, hfield⟩ := runWord_pbufByte_ne hrun ha
    exact .inr ⟨c, i, w, rfl, hdecode, henc, hfield⟩
  case inr.inr.inl => exact absurd (State.writeReg_pbufByte _ r v a) ha
  case inr.inr.inr.inr.inr.inl =>
    obtain rfl | hother := eq_or_ne a off
    · exact .inl ⟨b, rfl⟩
    · exact absurd (State.pbufByte_pbufWrite_other { s with pending := rest } b hother) ha
  case inr.inr.inr.inr.inr.inr => exact absurd hreset hop
  all_goals exact absurd rfl ha

/-! ### A command executed twice -/

/-- Writing the same bytes again at the same place leaves a canonical memory as it is. -/
theorem Memory.writeBytes_writeBytes {m : Memory} (hm : m.wf) (a : Nat) (bs : List Byte) :
    (m.writeBytes a bs).writeBytes a bs = m.writeBytes a bs := by
  have honce := wf_writeBytes hm a bs
  refine ext (wf_writeBytes honce a bs) honce fun x => ?_
  by_cases hx : x < a ∨ a + bs.length ≤ x
  · exact lookup_writeBytes_outside bs _ hx
  · obtain ⟨k, rfl⟩ := Nat.exists_eq_add_of_le (show a ≤ x by omega)
    have hk : k < bs.length := by omega
    rw [lookup_writeBytes_inside bs _ a hk, lookup_writeBytes_inside bs _ a hk]

namespace State

variable {s : State}

/-- The first cause is kept (60_exceptions.md R97), so a second fault changes nothing. -/
theorem raise_raise (s : State) (c c' : FaultCode) : (s.raise c).raise c' = s.raise c := rfl

theorem finishEnc_finishEnc (hs : s.pbuf.wf) (w : Nat) (x : Word) :
    (s.finishEnc w x).finishEnc w x = s.finishEnc w x := by
  have hpbuf := Memory.writeBytes_writeBytes hs s.cursor (beBytes w (x.setWidth (8 * w)))
  exact congrArg (fun m => { s with nbytes := BitVec.ofNat 3 w, pbuf := m }) hpbuf

theorem finishDec_finishDec (s : State) (w : Nat) (v : Bool) (x : Word) :
    (s.finishDec w v x).finishDec w v x = s.finishDec w v x := rfl

/-- An encode reads nothing that it writes, so again it faults or writes the same field. -/
theorem encodeSequence_encodeSequence (hs : s.pbuf.wf) (t : ValueType) (v : Bool) (tb vc : Nat) (sg : Bool) :
    (s.encodeSequence t v tb vc sg).encodeSequence t v tb vc sg = s.encodeSequence t v tb vc sg := by
  cases h : s.encFault t v tb vc with
  | some c =>
    rw [encodeSequence_of_fault h, encodeSequence_of_fault ((encFault_raise ..).trans h), raise_raise]
  | none =>
    rw [encodeSequence_of_none h, encodeSequence_of_none ((encFault_finishEnc ..).trans h)]
    exact finishEnc_finishEnc hs _ _

/-- A decode reads nothing that it writes, so again it faults or gives the same output. -/
theorem decodeSequence_decodeSequence (s : State) (t : ValueType) (tb vc : Nat) (sg : Bool) :
    (s.decodeSequence t tb vc sg).decodeSequence t tb vc sg = s.decodeSequence t tb vc sg := by
  cases h : s.decFault t tb vc with
  | some c =>
    rw [decodeSequence_of_fault h, decodeSequence_of_fault ((decFault_raise ..).trans h), raise_raise]
  | none =>
    rw [decodeSequence_of_none h, decodeSequence_of_none ((decFault_finishDec ..).trans h)]
    exact finishDec_finishDec s _ _ _

end State

/-- Settles O36: both sequences are idempotent. -/
theorem repeatedCommandChangesNothing : Obligations.RepeatedCommandChangesNothing := by
  unfold Obligations.RepeatedCommandChangesNothing
  intro i s t hs hexec
  cases hi : i.isEnc with
  | true =>
    rw [exec_enc hi] at hexec ⊢
    cases hexec
    rw [State.encodeSequence_encodeSequence hs]
  | false =>
    rw [exec_dec hi] at hexec ⊢
    cases hexec
    rw [State.decodeSequence_decodeSequence]

end Sys2Proof.Machine
end

section
/-! PROOF. The encoding family (30_encoding.md): a command is its word's fields, so that decoding and encoding are
inverse to each other (R50, R58, R60, R61), the opcode table (R58), and the verdicts on illegal words (R59). -/

namespace Sys2Proof

/-! ### A command and its word have the same fields -/

/-- The word `c` has the fields of the command `i` (30_encoding.md R50) and no reserved bit (R56). -/
structure CarriesFields (c : Word) (i : Instr) : Prop where
  op : opField c = i.opBits
  vt : vtField c = i.valueType.field
  valid : vField c = i.validFlag
  tb : (tbField c).toNat = i.totalBytes
  vc : (vcField c).toNat = i.valueCount
  sg : sgField c = i.signed
  rsv : rsvField c = 0#7

theorem Instr.opBits_enc {i : Instr} (h : i.isEnc = true) : i.opBits = 0x1#4 := by simp [opBits, h]

theorem Instr.opBits_dec {i : Instr} (h : i.isEnc = false) : i.opBits = 0x2#4 := by simp [opBits, h]

theorem valueTypeOf_eq_some_iff {f : BitVec 3} {t : ValueType} : valueTypeOf f = some t ↔ f = t.field :=
  ⟨fun h => (field_of_valueTypeOf h).symm, fun h => h ▸ valueTypeOf_field t⟩

theorem decode_enc {c : Word} {t : ValueType} (hop : opField c = 0x1#4) (hvt : vtField c = t.field)
    (hrsv : rsvField c = 0#7) :
    decode c = .command (encOf t (vField c) (tbField c).toNat (vcField c).toNat (sgField c)) := by
  simp [decode, hop, hvt, hrsv]

theorem decode_dec {c : Word} {t : ValueType} (hop : opField c = 0x2#4) (hvt : vtField c = t.field)
    (hrsv : rsvField c = 0#7) (hv : vField c = false) :
    decode c = .command (decOf t (tbField c).toNat (vcField c).toNat (sgField c)) := by
  simp [decode, hop, hvt, hrsv, hv]

/-- A decoded word carries the fields of its command (30_encoding.md R58). -/
theorem carriesFields_of_decode {c : Word} {i : Instr} (h : decode c = .command i) : CarriesFields c i := by
  rcases decode_cases c with ⟨hd, -⟩ | ⟨hd, -⟩ | ⟨_, hd, -⟩ | ⟨t, hd, hop, hvt, hrsv⟩ | ⟨t, hd, hop, hvt, hrsv, hv⟩ <;>
    cases hd.symm.trans h
  · constructor <;> simp [Instr.opBits, hop, valueTypeOf_eq_some_iff.1 hvt, hrsv]
  · constructor <;> simp [Instr.opBits, hop, valueTypeOf_eq_some_iff.1 hvt, hrsv, hv]

/-- A word that carries the fields of a command decodes to it (30_encoding.md R58). -/
theorem CarriesFields.decode_eq {c : Word} {i : Instr} (h : CarriesFields c i) : decode c = .command i := by
  obtain ⟨hop, hvt, hv, htb, hvc, hsg, hrsv⟩ := h
  have hi := Machine.instr_eq i
  cases henc : i.isEnc with
  | true =>
    rw [henc, if_pos rfl, ← hv, ← htb, ← hvc, ← hsg] at hi
    rw [hi]
    exact decode_enc (hop.trans (Instr.opBits_enc henc)) hvt hrsv
  | false =>
    have hv' : vField c = false := by rw [hv, hi, henc]; simp
    rw [henc, if_neg (by decide), ← htb, ← hvc, ← hsg] at hi
    rw [hi]
    exact decode_dec (hop.trans (Instr.opBits_dec henc)) hvt hrsv hv'

theorem encode_carriesFields {i : Instr} (h : i.WellFormed) : CarriesFields (encode i) i := by
  obtain ⟨htb, hvc⟩ := h
  rw [encode_eq_assemble]
  constructor <;> simp [Nat.mod_eq_of_lt, htb, hvc]

namespace CarriesFields

variable {c : Word} {i : Instr}

theorem encode_eq (h : CarriesFields c i) : encode i = c := by
  rw [encode_eq_assemble, ← h.op, ← h.vt, ← h.valid, ← h.tb, ← h.vc, ← h.sg, BitVec.ofNat_toNat, BitVec.ofNat_toNat,
    BitVec.setWidth_eq, BitVec.setWidth_eq]
  exact assemble_fields h.rsv

theorem wellFormed (h : CarriesFields c i) : i.WellFormed := by
  rw [Instr.WellFormed, ← h.tb, ← h.vc]
  exact ⟨(tbField c).isLt, (vcField c).isLt⟩

end CarriesFields

/-- Settles O1: the word of a well-formed command carries its fields. -/
theorem decodeOfEncode : Obligations.DecodeOfEncode := by
  unfold Obligations.DecodeOfEncode
  intro i hi
  exact (encode_carriesFields hi).decode_eq

/-- Settles O2: a decoded word carries the command's fields, and a word is determined by the fields it carries. -/
theorem encodeOfDecode : Obligations.EncodeOfDecode := by
  unfold Obligations.EncodeOfDecode
  intro c i h
  have hc := carriesFields_of_decode h
  exact ⟨hc.encode_eq, hc.wellFormed⟩

/-- Settles O3: each field the command shares with its word, as a number. -/
theorem decodedFieldsAreTheWordsBits : Obligations.DecodedFieldsAreTheWordsBits := by
  unfold Obligations.DecodedFieldsAreTheWordsBits
  intro c i h
  obtain ⟨hop, hvt, hv, htb, hvc, hsg, -⟩ := carriesFields_of_decode h
  refine ⟨?_, ?_, ?_, ?_, ?_, ?_⟩
  · rw [← opField_toNat, hop, Instr.opBits]
    cases i.isEnc <;> rfl
  · rw [← vtField_toNat, hvt]
  · rw [← hv, vField, bit_toNat]
  · rw [← htb, tbField_toNat]
  · rw [← hvc, vcField_toNat]
  · rw [← hsg, sgField, bit_toNat]

/-! ### The opcode table -/

/-- The row of the encode (`enc`) or decode command of a value type: its mask keeps OP, VT and the reserved bits, and a
decode's V (30_encoding.md R58). -/
def tableRow (enc : Bool) (t : ValueType) : OpcodeRow :=
  if enc then ⟨(encOf t false 0 0 false).mnemonic, assemble 0x1#4 t.field false 0#8 0#8 false, 0xFE00007F⟩
  else ⟨(decOf t 0 0 false).mnemonic, assemble 0x2#4 t.field false 0#8 0#8 false, 0xFF00007F⟩

theorem opcodeRows_eq :
    opcodeRows = [.i32, .f32, .u8, .u16, .u32].map (tableRow true)
      ++ [.i32, .f32, .u8, .u16, .u32].map (tableRow false) := by
  decide

theorem mem_opcodeRows_iff {r : OpcodeRow} : r ∈ opcodeRows ↔ ∃ enc t, tableRow enc t = r := by
  have hall : ∀ t : ValueType, t ∈ [.i32, .f32, .u8, .u16, .u32] := fun t => by cases t <;> decide
  simp only [opcodeRows_eq, List.mem_append, List.mem_map, hall, true_and, Bool.exists_bool, or_comm]

theorem tableRow_mnemonic (i : Instr) : (tableRow i.isEnc i.valueType).mnemonic = i.mnemonic := by
  cases i <;> rfl

section
variable (c m : Word)

theorem opField_and : opField (c &&& m) = opField c &&& opField m := BitVec.extractLsb'_and
theorem vtField_and : vtField (c &&& m) = vtField c &&& vtField m := BitVec.extractLsb'_and
theorem vField_and : vField (c &&& m) = (vField c && vField m) := BitVec.getLsbD_and
theorem rsvField_and : rsvField (c &&& m) = rsvField c &&& rsvField m := BitVec.extractLsb'_and

end

/-- What an encode's mask compares: OP, VT and the reserved bits. -/
theorem and_encMask_eq_iff {c : Word} {op : BitVec 4} {vt : BitVec 3} :
    c &&& 0xFE00007F#32 = assemble op vt false 0#8 0#8 false ↔ opField c = op ∧ vtField c = vt ∧ rsvField c = 0#7 := by
  have hop : opField 0xFE00007F#32 = BitVec.allOnes 4 := by decide
  have hvt : vtField 0xFE00007F#32 = BitVec.allOnes 3 := by decide
  have hrsv : rsvField 0xFE00007F#32 = BitVec.allOnes 7 := by decide
  constructor
  · intro h
    have hopc := congrArg opField h
    have hvtc := congrArg vtField h
    have hrsvc := congrArg rsvField h
    rw [opField_and, hop, BitVec.and_allOnes, opField_assemble] at hopc
    rw [vtField_and, hvt, BitVec.and_allOnes, vtField_assemble] at hvtc
    rw [rsvField_and, hrsv, BitVec.and_allOnes, rsvField_assemble] at hrsvc
    exact ⟨hopc, hvtc, hrsvc⟩
  · rintro ⟨rfl, rfl, h⟩
    conv_lhs => rw [← assemble_fields h]
    exact (Laws.EncodingMatchesRow.assemble_and_mask ..).1

/-- What a decode's mask compares: what an encode's does, and V. -/
theorem and_decMask_eq_iff {c : Word} {op : BitVec 4} {vt : BitVec 3} :
    c &&& 0xFF00007F#32 = assemble op vt false 0#8 0#8 false ↔
      opField c = op ∧ vtField c = vt ∧ rsvField c = 0#7 ∧ vField c = false := by
  constructor
  · intro h
    have henc : c &&& 0xFE00007F#32 = assemble op vt false 0#8 0#8 false := by
      rw [show (0xFE00007F#32 : Word) = 0xFF00007F#32 &&& 0xFE00007F#32 by decide, ← BitVec.and_assoc, h,
        (Laws.EncodingMatchesRow.assemble_and_mask ..).1]
    have hv := congrArg vField h
    rw [vField_and, show vField 0xFF00007F#32 = true by decide, Bool.and_true, vField_assemble] at hv
    obtain ⟨hop, hvt, hrsv⟩ := and_encMask_eq_iff.1 henc
    exact ⟨hop, hvt, hrsv, hv⟩
  · rintro ⟨rfl, rfl, h, hv⟩
    conv_lhs => rw [← assemble_fields h, hv]
    exact (Laws.EncodingMatchesRow.assemble_and_mask ..).2

/-- A row accepts exactly the words with its OP and VT, no reserved bit, and in a decode no V. -/
theorem tableRow_accepts_iff_fields {enc : Bool} {t : ValueType} {c : Word} :
    (tableRow enc t).accepts c = true ↔
      opField c = (if enc then 0x1#4 else 0x2#4) ∧ vtField c = t.field ∧ rsvField c = 0#7
        ∧ (enc = false → vField c = false) := by
  rw [OpcodeRow.accepts, beq_iff_eq]
  cases enc with
  | true => simpa [tableRow] using and_encMask_eq_iff
  | false => simpa [tableRow] using and_decMask_eq_iff

/-- A row accepts exactly the words that decode to a command of its kind and value type (30_encoding.md R58). -/
theorem tableRow_accepts_iff_decode {enc : Bool} {t : ValueType} {c : Word} :
    (tableRow enc t).accepts c = true ↔ ∃ i, decode c = .command i ∧ i.isEnc = enc ∧ i.valueType = t := by
  rw [tableRow_accepts_iff_fields]
  constructor
  · rintro ⟨hop, hvt, hrsv, hv⟩
    cases enc with
    | true => exact ⟨_, decode_enc hop hvt hrsv, encOf_isEnc .., encOf_valueType ..⟩
    | false => exact ⟨_, decode_dec hop hvt hrsv (hv rfl), decOf_isEnc .., decOf_valueType ..⟩
  · rintro ⟨i, hi, rfl, rfl⟩
    have hc := carriesFields_of_decode hi
    refine ⟨hc.op, hc.vt, hc.rsv, fun hdec => ?_⟩
    rw [hc.valid, Machine.instr_eq i, hdec]
    simp

/-- Settles O4: a word matches a row exactly when it decodes to a command of that row, which has its mnemonic. -/
theorem decodeMatchesOpcodeTable : Obligations.DecodeMatchesOpcodeTable := by
  unfold Obligations.DecodeMatchesOpcodeTable
  intro c m
  constructor
  · rintro ⟨i, hi, rfl⟩
    exact ⟨tableRow i.isEnc i.valueType, mem_opcodeRows_iff.2 ⟨_, _, rfl⟩,
      tableRow_accepts_iff_decode.2 ⟨i, hi, rfl, rfl⟩, tableRow_mnemonic i⟩
  · rintro ⟨r, hr, haccepts, rfl⟩
    obtain ⟨enc, t, rfl⟩ := mem_opcodeRows_iff.1 hr
    obtain ⟨i, hi, rfl, rfl⟩ := tableRow_accepts_iff_decode.1 haccepts
    exact ⟨i, hi, (tableRow_mnemonic i).symm⟩

/-- Settles O5: a word decodes to one command at most, and both rows are that command's. -/
theorem noWordMatchesTwoRows : Obligations.NoWordMatchesTwoRows := by
  unfold Obligations.NoWordMatchesTwoRows
  intro c r q hr hq hrc hqc
  obtain ⟨_, _, rfl⟩ := mem_opcodeRows_iff.1 hr
  obtain ⟨_, _, rfl⟩ := mem_opcodeRows_iff.1 hq
  obtain ⟨i, hi, rfl, rfl⟩ := tableRow_accepts_iff_decode.1 hrc
  obtain ⟨j, hj, rfl, rfl⟩ := tableRow_accepts_iff_decode.1 hqc
  rw [hi] at hj
  cases hj
  rfl

/-! ### Illegal words -/

theorem valueTypeOf_eq_none_iff {f : BitVec 3} : valueTypeOf f = none ↔ 5 ≤ f.toNat := by
  revert f
  decide

theorem decode_eq_fOp_iff {c : Word} : decode c = .illegal .fOp ↔ opField c ≠ 0x1#4 ∧ opField c ≠ 0x2#4 := by
  rcases decode_cases c with ⟨h, hop⟩ | ⟨h, hop | hop, -⟩ | ⟨_, h, hop | hop, -⟩ | ⟨_, h, hop, -⟩ | ⟨_, h, hop, -⟩ <;>
    simp [h, hop]

theorem decode_eq_fType_iff {c : Word} :
    decode c = .illegal .fType ↔ (opField c = 0x1#4 ∨ opField c = 0x2#4) ∧ valueTypeOf (vtField c) = none := by
  rcases decode_cases c with ⟨h, hop⟩ | ⟨h, hop, hvt⟩ | ⟨_, h, -, hvt, -⟩ | ⟨_, h, -, hvt, -⟩ | ⟨_, h, -, hvt, -⟩ <;>
    simp [*]

theorem decode_eq_fRsv_iff {c : Word} :
    decode c = .illegal .fRsv ↔ (opField c = 0x1#4 ∨ opField c = 0x2#4) ∧ valueTypeOf (vtField c) ≠ none
      ∧ (rsvField c ≠ 0#7 ∨ opField c = 0x2#4 ∧ vField c = true) := by
  rcases decode_cases c with ⟨h, hop⟩ | ⟨h, hop, hvt⟩ | ⟨_, h, hop, hvt, hrsv⟩ | ⟨_, h, hop, hvt, hrsv⟩ |
      ⟨_, h, hop, hvt, hrsv, hv⟩ <;>
    simp [*]

theorem illegal_code {c : Word} {k : FaultCode} (h : decode c = .illegal k) : k = .fOp ∨ k = .fType ∨ k = .fRsv := by
  rcases decode_cases c with ⟨hd, -⟩ | ⟨hd, -⟩ | ⟨_, hd, -⟩ | ⟨_, hd, -⟩ | ⟨_, hd, -⟩ <;>
    cases hd.symm.trans h <;> simp

/-- Settles O6: the three verdicts in terms of the fields, and the fields as numbers. -/
theorem illegalWordVerdicts : Obligations.IllegalWordVerdicts := by
  unfold Obligations.IllegalWordVerdicts
  intro c
  have hop (x : BitVec 4) : opField c = x ↔ c.toNat / 2 ^ 28 = x.toNat := by rw [← opField_toNat, BitVec.toNat_inj]
  have hvt : valueTypeOf (vtField c) = none ↔ 5 ≤ c.toNat / 2 ^ 25 % 8 := by
    rw [valueTypeOf_eq_none_iff, vtField_toNat]
  have hv : vField c = true ↔ c.toNat / 2 ^ 24 % 2 = 1 := by
    rw [vField, ← bit_toNat, Bool.toNat_eq_one]
  have hrsv : rsvField c = 0#7 ↔ c.toNat % 2 ^ 7 = 0 := by
    rw [← rsvField_toNat, BitVec.toNat_eq]
    rfl
  refine ⟨?_, ?_, ?_, fun k => illegal_code⟩
  · rw [decode_eq_fOp_iff, ne_eq, ne_eq, hop, hop]
    rfl
  · rw [decode_eq_fType_iff, hop, hop, hvt]
    rfl
  · rw [decode_eq_fRsv_iff, ne_eq, ne_eq, hop, hop, hvt, hv, hrsv, not_le]
    rfl

/-- Settles O7: the words are closed, so the decoder is run on each. -/
theorem specWordsDecode : Obligations.SpecWordsDecode := by
  unfold Obligations.SpecWordsDecode
  decide

end Sys2Proof
end

section
/-! PROOF. The datapath family (40_datapath.md), the integer units: the sentinel detector (R64, R65) and reassembly
(R68), with the packer's inverse. -/

namespace Sys2Proof.Machine

/-! ### The sentinel detector and reassembly -/

theorem beByte_sentinel (w : Nat) (sg : Bool) {k : Nat} (hk : k < w) :
    beByte w (sentinel w sg) k = sentinelByte sg := by
  rw [sentinel, beByte_ofNat_beNat _ List.length_replicate hk, List.getElem_replicate]

/-- The detector fires exactly when every byte is the sentinel byte (40_datapath.md R64, R65). -/
theorem isSentinel_iff {w : Nat} {u : BitVec (8 * w)} {sg : Bool} :
    isSentinel w u sg = true ↔ ∀ k < w, u.extractLsb' (8 * k) 8 = sentinelByte sg := by
  rw [isSentinel, beq_iff_eq]
  constructor
  · rintro rfl k hk
    have h := beByte_sentinel w sg (k := w - 1 - k) (by omega)
    rwa [beByte, show w - 1 - (w - 1 - k) = k by omega] at h
  · intro h
    refine beByte_ext fun k hk => ?_
    rw [beByte_sentinel w sg hk]
    exact h (w - 1 - k) (by omega)

/-- The detector on the low bytes of a pattern reads the pattern's own bytes. -/
theorem isSentinel_setWidth_iff {w : Nat} {x : Word} {sg : Bool} :
    isSentinel w (x.setWidth (8 * w)) sg = true ↔ ∀ k < w, x.extractLsb' (8 * k) 8 = sentinelByte sg := by
  rw [isSentinel_iff]
  refine forall₂_congr fun k hk => ?_
  rw [BitVec.extractLsb'_setWidth_of_le (by omega)]

/-- `n` lies in the range of a field of this width and signedness (40_datapath.md R68). -/
def InFieldRange (w : Nat) (sg : Bool) (n : ℤ) : Prop :=
  if sg then -2 ^ (8 * w - 1) ≤ n ∧ n ≤ 2 ^ (8 * w - 1) - 1 else 0 ≤ n ∧ n ≤ 2 ^ (8 * w) - 1

section
variable (w : Nat) (u : BitVec (8 * w)) (sg : Bool)

theorem raw_inFieldRange : InFieldRange w sg (raw w u sg) := by
  cases sg with
  | true => exact ⟨u.le_toInt, BitVec.toInt_le⟩
  | false =>
    have hlt : (u.toNat : ℤ) < 2 ^ (8 * w) := by exact_mod_cast u.isLt
    exact ⟨Int.natCast_nonneg _, Int.le_sub_one_of_lt hlt⟩

theorem raw_emod : raw w u sg % 2 ^ (8 * w) = u.toNat := by
  have hlt : (u.toNat : ℤ) < 2 ^ (8 * w) := by exact_mod_cast u.isLt
  have hmod : (u.toNat : ℤ) % 2 ^ (8 * w) = u.toNat := Int.emod_eq_of_lt (Int.natCast_nonneg _) hlt
  cases sg with
  | true =>
    have h := Int.bmod_emod (x := u.toNat) (m := 2 ^ (8 * w))
    rw [← BitVec.toInt_eq_toNat_bmod] at h
    push_cast at h
    exact h.trans hmod
  | false => exact hmod

/-- `raw32` is the 32-bit pattern of `raw` (40_datapath.md R68). -/
theorem raw32_eq_ofInt_raw (hw : w ≤ 4) : raw32 w u sg = BitVec.ofInt 32 (raw w u sg) := by
  cases sg with
  | true =>
    have h := BitVec.toInt_signExtend_of_le (x := u) (v := 32) (by omega)
    exact (BitVec.ofInt_toInt (x := u.signExtend 32)).symm.trans (congrArg (BitVec.ofInt 32) h)
  | false => exact (BitVec.ofNat_toNat 32 u).symm

end

theorem setWidth_ofInt {v w : Nat} (h : v ≤ w) (n : ℤ) : (BitVec.ofInt w n).setWidth v = BitVec.ofInt v n := by
  have hdvd : (2 ^ v : ℤ) ∣ 2 ^ w := pow_dvd_pow 2 h
  have hw := Int.emod_nonneg n (show (2 ^ w : ℤ) ≠ 0 by positivity)
  have hv := Int.emod_nonneg n (show (2 ^ v : ℤ) ≠ 0 by positivity)
  apply BitVec.eq_of_toNat_eq
  zify
  simp [hw, hv, Int.emod_emod_of_dvd n hdvd]

/-- Packing an integer of the field's range and reassembling it gives it back (40_datapath.md R66, R68). -/
theorem raw_setWidth_ofInt {w : Nat} {sg : Bool} {n : ℤ} (h1 : 1 ≤ w) (h4 : w ≤ 4) (hn : InFieldRange w sg n) :
    raw w ((BitVec.ofInt 32 n).setWidth (8 * w)) sg = n := by
  rw [setWidth_ofInt (by omega)]
  cases sg with
  | true => exact BitVec.toInt_ofInt_eq_self (by omega) hn.1 (Int.lt_of_le_sub_one hn.2)
  | false =>
    obtain ⟨h0, hle⟩ := hn
    have hmod : n % 2 ^ (8 * w) = n := Int.emod_eq_of_lt h0 (Int.lt_of_le_sub_one hle)
    simp [raw, hmod, h0]

/-- Settles O48: two patterns are equal when their bytes are, so the detector compares every byte. -/
theorem sentinelIsTheRepeatedByte : Obligations.SentinelIsTheRepeatedByte := by
  unfold Obligations.SentinelIsTheRepeatedByte
  exact fun w u sg => isSentinel_iff

/-- Settles O49: a two's complement value lies in its range and is the field mod 2^(8w), and extension keeps it. -/
theorem reassemblyRange : Obligations.ReassemblyRange := by
  unfold Obligations.ReassemblyRange
  intro w u sg _ hw
  refine ⟨raw_inFieldRange w u sg, raw_emod w u sg, ?_⟩
  rw [raw32_eq_ofInt_raw w u sg hw, BitVec.toNat_ofInt]
  have h := Int.emod_nonneg (raw w u sg) (show ((2 ^ 32 : ℕ) : ℤ) ≠ 0 by decide)
  exact Int.toNat_of_nonneg h

end Sys2Proof.Machine
end

section
/-! PROOF. The datapath family (40_datapath.md), rounding to an integer, the classes of patterns, and the multiplier
(R71 to R73). -/

namespace Sys2Proof.Machine

/-! ### Rounding to an integer -/

/-- What defines the rounding: an error of at most half, and of exactly half only at an even result. -/
theorem rneInt_spec (q : ℚ) : |q - rneInt q| ≤ 1 / 2 ∧ (|q - rneInt q| = 1 / 2 → rneInt q % 2 = 0) := by
  have hle : (q.floor : ℚ) ≤ q := Int.floor_le q
  have hlt : q < q.floor + 1 := Int.lt_floor_add_one q
  have hdown : |q - (q.floor : ℤ)| = q - q.floor := abs_of_nonneg (by linarith)
  have hup : |q - (q.floor + 1 : ℤ)| = q.floor + 1 - q := by
    rw [abs_sub_comm, Int.cast_add, Int.cast_one]
    exact abs_of_nonneg (by linarith)
  simp only [rneInt]
  split_ifs with hbelow habove heven
  · rw [hdown]
    exact ⟨hbelow.le, fun h => absurd h hbelow.ne⟩
  · rw [hup]
    exact ⟨by linarith, fun h => by linarith⟩
  · rw [hdown]
    exact ⟨not_lt.mp habove, fun _ => heven⟩
  · rw [hup]
    exact ⟨by linarith, fun _ => by omega⟩

theorem abs_sub_rneInt_le (q : ℚ) : |q - rneInt q| ≤ 1 / 2 := (rneInt_spec q).1

theorem le_rneInt {q : ℚ} {n : ℤ} (h : (n : ℚ) ≤ q) : n ≤ rneInt q := by
  by_contra hc
  have hcast : (rneInt q : ℚ) + 1 ≤ n := by exact_mod_cast not_le.mp hc
  linarith [(abs_le.mp (abs_sub_rneInt_le q)).2]

theorem rneInt_le {q : ℚ} {n : ℤ} (h : q < n + 1 / 2) : rneInt q ≤ n := by
  by_contra hc
  have hcast : (n : ℚ) + 1 ≤ rneInt q := by exact_mod_cast not_le.mp hc
  linarith [(abs_le.mp (abs_sub_rneInt_le q)).1]

/-- Any other integer is at least 1 away from the rounded one, so its error is at least half (40_datapath.md R73). -/
theorem rneInt_nearest (q : ℚ) (m : ℤ) :
    |q - rneInt q| ≤ |q - m| ∧ (m ≠ rneInt q → |q - m| = |q - rneInt q| → rneInt q % 2 = 0) := by
  obtain ⟨hhalf, htie⟩ := rneInt_spec q
  rcases eq_or_ne m (rneInt q) with rfl | hne
  · exact ⟨le_rfl, fun h => absurd rfl h⟩
  · have hone : (1 : ℚ) ≤ |(rneInt q : ℚ) - m| := by exact_mod_cast Int.one_le_abs (sub_ne_zero.mpr hne.symm)
    have htri := abs_sub_le (rneInt q : ℚ) q m
    rw [abs_sub_comm (rneInt q : ℚ) q] at htri
    exact ⟨by linarith, fun _ heq => htie (by linarith)⟩

/-- Settles O44: an error of at most half is the least, and a tie is an error of exactly half. -/
theorem integerRoundingIsNearestEven : Obligations.IntegerRoundingIsNearestEven := by
  unfold Obligations.IntegerRoundingIsNearestEven
  exact rneInt_nearest

/-! ### Classes and magnitudes of patterns -/

theorem getLsbD_31_eq (b : Word) : b.getLsbD 31 = decide (2 ^ 31 ≤ b.toNat) :=
  (BitVec.msb_eq_getLsbD_last b).symm.trans (BitVec.msb_eq_decide b)

theorem isNaN_iff {b : Word} : isNaN b = true ↔ f32Exp b = 255 ∧ f32Frac b ≠ 0 := by simp [isNaN]

theorem isInf_iff {b : Word} : isInf b = true ↔ f32Exp b = 255 ∧ f32Frac b = 0 := by simp [isInf]

/-- The integer significand of a finite pattern: its magnitude in units of its last place (00_scope.md R11). -/
def f32Sig (b : Word) : ℕ := if f32Exp b = 0 then f32Frac b else 2 ^ 23 + f32Frac b

theorem f32Sig_lt (b : Word) : f32Sig b < 2 ^ 24 := by
  have := f32Frac_lt b
  rw [f32Sig]
  split <;> omega

theorem f32Mag_eq_sig (b : Word) : f32Mag b = f32Sig b * pow2 (max 1 (f32Exp b : ℤ) - 150) := by
  rw [f32Mag, f32Sig]
  split_ifs with h
  · rw [h]
    rfl
  · rw [max_eq_right (by omega)]

theorem f32Mag_lt (b : Word) : f32Mag b < 2 ^ 24 * pow2 (max 1 (f32Exp b : ℤ) - 150) := by
  have hsig : (f32Sig b : ℚ) < 2 ^ 24 := by exact_mod_cast f32Sig_lt b
  rw [f32Mag_eq_sig]
  exact mul_lt_mul_of_pos_right hsig (pow2_pos _)

theorem f32Mag_pos_iff {b : Word} : 0 < f32Mag b ↔ b.toNat % 2 ^ 31 ≠ 0 := by
  rw [f32Mag_eq_sig, mul_pos_iff_of_pos_right (pow2_pos _), Nat.cast_pos, f32Sig, f32Exp_eq, f32Frac_eq]
  split_ifs <;> omega

theorem f32val_pos_iff {b : Word} : 0 < f32val b ↔ 0 < b.toNat ∧ b.toNat < 2 ^ 31 := by
  have hmag := f32Mag_pos_iff (b := b)
  have hlt := b.isLt
  rw [f32val, getLsbD_31_eq]
  simp only [decide_eq_true_eq]
  split_ifs with h
  · have := f32Mag_nonneg b
    constructor
    · intro hneg
      linarith
    · omega
  · rw [hmag]
    omega

theorem f32Exp_eq_255_iff {b : Word} : f32Exp b = 255 ↔ isNaN b = true ∨ isInf b = true := by
  rw [isNaN_iff, isInf_iff]
  tauto

theorem scaleOk_iff {b : Word} : scaleOk b = true ↔ f32Exp b ≠ 255 ∧ 0 < f32val b := by
  simp [scaleOk, f32Exp_eq_255_iff]

/-- Settles O43: each class is a condition on the exponent, the fraction and the sign, so on the pattern's number. -/
theorem floatClasses : Obligations.FloatClasses := by
  unfold Obligations.FloatClasses
  intro b
  rw [isNaN_iff, isInf_iff, scaleOk_iff, f32val_pos_iff, f32Exp_eq, f32Frac_eq]
  have := b.isLt
  refine ⟨?_, ?_, ?_⟩ <;> omega

/-! ### Fix -/

theorem fixInt_of_isInf {b : Word} (h : isInf b = true) (s : Word) (sg : Bool) :
    fixInt b s sg = if b.getLsbD 31 then satLo sg else satHi sg := by rw [fixInt, if_pos h]

theorem fixInt_of_finite {b : Word} (h : isInf b = false) (s : Word) (sg : Bool) :
    fixInt b s sg = min (satHi sg) (max (satLo sg) (rneInt (f32val b * f32val s))) := by
  rw [fixInt, if_neg (by rw [h]; decide)]

/-- Settles O46: n is the exact product rounded by RNE_int, and the model clamps it. -/
theorem fixRoundsTheExactProductOnce : Obligations.FixRoundsTheExactProductOnce := by
  unfold Obligations.FixRoundsTheExactProductOnce
  intro b s sg _ _ lo hi
  refine ⟨fun h => congrArg _ (fixInt_of_isInf h s sg), fun h => ⟨rneInt (f32val b * f32val s), ?_, ?_, ?_⟩⟩
  · exact fun m => (rneInt_nearest _ m).1
  · exact (rneInt_spec _).2
  · exact congrArg _ (fixInt_of_finite h s sg)

end Sys2Proof.Machine
end

section
/-! PROOF. The datapath family (40_datapath.md), rounding to binary32 and the divider (R74, R75). A positive quotient
is counted in units of its exponent's last place; the pattern is that count, and no other value is nearer. -/

namespace Sys2Proof.Machine

/-! ### The binary32 values near an exponent -/

theorem pow2_zero : pow2 0 = 1 := by rw [pow2_eq, zpow_zero]

theorem pow2_one : pow2 1 = 2 := by rw [pow2_eq, zpow_one]

/-- `v` is a whole number of units in the last place at the biased exponent `e`, or, where `e` has a smaller one,
lies below the magnitudes of `e`. -/
def OnGridOrBelow (e : ℤ) (v : ℚ) : Prop :=
  (∃ m : ℤ, v = m * pow2 (e - 150)) ∨ (1 < e ∧ |v| < 2 ^ 23 * pow2 (e - 150))

theorem OnGridOrBelow.neg {e : ℤ} {v : ℚ} (h : OnGridOrBelow e v) : OnGridOrBelow e (-v) := by
  obtain ⟨m, rfl⟩ | h := h
  · exact .inl ⟨-m, by push_cast; ring⟩
  · exact .inr (by rwa [abs_neg])

theorem f32Mag_onGridOrBelow (b : Word) (e : ℤ) : OnGridOrBelow e (f32Mag b) := by
  have hmag := f32Mag_eq_sig b
  set k : ℤ := max 1 (f32Exp b : ℤ)
  rcases le_or_gt e k with hek | hke
  · refine .inl ⟨f32Sig b * 2 ^ (k - e).toNat, ?_⟩
    rw [hmag, show k - 150 = (k - e).toNat + (e - 150) by omega, pow2_add, pow2_eq (k - e).toNat, zpow_natCast]
    push_cast
    ring
  · refine .inr ⟨(le_max_left _ _).trans_lt hke, ?_⟩
    rw [abs_of_nonneg (f32Mag_nonneg b)]
    calc f32Mag b < 2 ^ 24 * pow2 (k - 150) := f32Mag_lt b
      _ = 2 ^ 23 * pow2 (k - 150 + 1) := by
        rw [pow2_add, pow2_one]
        ring
      _ ≤ 2 ^ 23 * pow2 (e - 150) := mul_le_mul_of_nonneg_left (pow2_le_pow2.mpr (by omega)) (by norm_num)

theorem f32val_onGridOrBelow (b : Word) (e : ℤ) : OnGridOrBelow e (f32val b) := by
  have h := f32Mag_onGridOrBelow b e
  rw [f32val]
  split
  · exact h.neg
  · exact h

theorem f32Mag_lt_of_finite {b : Word} (h : f32Exp b ≠ 255) : f32Mag b < pow2 128 := by
  have hexp := f32Exp_lt b
  calc f32Mag b < 2 ^ 24 * pow2 (max 1 (f32Exp b : ℤ) - 150) := f32Mag_lt b
    _ ≤ 2 ^ 24 * pow2 104 := mul_le_mul_of_nonneg_left (pow2_le_pow2.mpr (by omega)) (by norm_num)
    _ = pow2 128 := by
      simp only [pow2_eq]
      norm_num

/-! ### Rounding to binary32 -/

/-- The biased exponent at which `f32MagBits` counts units. -/
def roundExp (q : ℚ) : ℤ := max 1 (binExp q + 127)

/-- The rounded count of units. -/
def roundCount (q : ℚ) : ℤ := rneInt (q * pow2 (150 - roundExp q))

theorem f32MagBits_eq (q : ℚ) : f32MagBits q = (roundExp q - 1).toNat * 2 ^ 23 + (roundCount q).toNat := rfl

theorem one_le_roundExp (q : ℚ) : 1 ≤ roundExp q := le_max_left _ _

/-- The overflow threshold, in units of the greatest exponent: half a unit below 2^24 of them (40_datapath.md R74). -/
theorem overflowBound_eq : pow2 128 - pow2 103 = (2 ^ 24 - 1 / 2) * pow2 (254 - 150) := by
  simp only [pow2_eq]
  norm_num

theorem mul_pow2_neg_mul_pow2 (q : ℚ) (e : ℤ) : q * pow2 (150 - e) * pow2 (e - 150) = q := by
  rw [mul_assoc, ← pow2_add, show 150 - e + (e - 150) = 0 by ring, pow2_zero, mul_one]

/-- Counting units: dividing by the unit is multiplying by its inverse. -/
theorem le_mul_pow2_iff {x q : ℚ} {e : ℤ} : x ≤ q * pow2 (150 - e) ↔ x * pow2 (e - 150) ≤ q := by
  rw [← mul_le_mul_iff_of_pos_right (pow2_pos (e - 150)), mul_pow2_neg_mul_pow2]

theorem mul_pow2_lt_iff {x q : ℚ} {e : ℤ} : q * pow2 (150 - e) < x ↔ q < x * pow2 (e - 150) := by
  rw [← mul_lt_mul_iff_of_pos_right (pow2_pos (e - 150)), mul_pow2_neg_mul_pow2]

/-- Below the overflow bound no count at the greatest exponent rounds up to the next power of two. -/
theorem roundCount_lt {q : ℚ} (hlt : q < pow2 128 - pow2 103) (h : roundExp q = 254) : roundCount q < 2 ^ 24 := by
  rw [overflowBound_eq, ← h, ← mul_pow2_lt_iff] at hlt
  exact Int.lt_of_le_sub_one (rneInt_le (by push_cast; linarith))

section
variable {q : ℚ} (hq : 0 < q)
include hq

theorem lt_of_roundExp : q < 2 ^ 24 * pow2 (roundExp q - 150) := by
  calc q < pow2 (binExp q + 1) := (binExp_spec hq).2
    _ ≤ pow2 (24 + (roundExp q - 150)) := pow2_le_pow2.mpr <| by
      rw [roundExp]
      omega
    _ = 2 ^ 24 * pow2 (roundExp q - 150) := by
      rw [pow2_add, pow2_eq 24]
      rfl

theorem le_of_one_lt_roundExp (h : 1 < roundExp q) : 2 ^ 23 * pow2 (roundExp q - 150) ≤ q := by
  calc 2 ^ 23 * pow2 (roundExp q - 150) = pow2 (23 + (roundExp q - 150)) := by
        rw [pow2_add, pow2_eq 23]
        rfl
    _ ≤ pow2 (binExp q) := pow2_le_pow2.mpr <| by
      rw [roundExp] at h ⊢
      omega
    _ ≤ q := (binExp_spec hq).1

theorem roundExp_le (hlt : q < pow2 128) : roundExp q ≤ 254 := by
  have := pow2_lt_pow2.mp ((binExp_spec hq).1.trans_lt hlt)
  rw [roundExp]
  omega

theorem roundCount_nonneg : 0 ≤ roundCount q :=
  le_rneInt (by simpa using (mul_pos hq (pow2_pos _)).le)

theorem roundCount_le : roundCount q ≤ 2 ^ 24 := by
  have h := mul_pow2_lt_iff.mpr (lt_of_roundExp hq)
  exact rneInt_le (by push_cast; linarith)

theorem le_roundCount (h : 1 < roundExp q) : 2 ^ 23 ≤ roundCount q :=
  le_rneInt (le_mul_pow2_iff.mpr (by exact_mod_cast le_of_one_lt_roundExp hq h))

/-- A quotient of at least the smallest subnormal does not round to a count of 0. -/
theorem roundCount_pos (hle : pow2 (-149) ≤ q) : 1 ≤ roundCount q := by
  rcases (one_le_roundExp q).lt_or_eq with h | h
  · linarith [le_roundCount hq h]
  · refine le_rneInt (le_mul_pow2_iff.mpr ?_)
    rw [← h, Int.cast_one, one_mul]
    exact hle

/-- No value of the format is nearer than the rounded count of units, and one equally near leaves the count even. -/
theorem roundCount_nearest {v : ℚ} (hv : OnGridOrBelow (roundExp q) v) :
    |q - roundCount q * pow2 (roundExp q - 150)| ≤ |q - v|
      ∧ (v ≠ roundCount q * pow2 (roundExp q - 150) →
          |q - v| = |q - roundCount q * pow2 (roundExp q - 150)| → roundCount q % 2 = 0) := by
  have hu := pow2_pos (roundExp q - 150)
  have hscale (m : ℤ) :
      |q - m * pow2 (roundExp q - 150)| = |q * pow2 (150 - roundExp q) - m| * pow2 (roundExp q - 150) := by
    rw [← abs_of_pos hu, ← abs_mul, sub_mul, abs_of_pos hu, mul_pow2_neg_mul_pow2]
  have hnear (m : ℤ) := rneInt_nearest (q * pow2 (150 - roundExp q)) m
  obtain ⟨m, rfl⟩ | ⟨h1, hbelow⟩ := hv
  · rw [hscale, hscale]
    obtain ⟨hle, heven⟩ := hnear m
    refine ⟨mul_le_mul_of_nonneg_right hle hu.le, fun hne heq => heven ?_ (mul_right_cancel₀ hu.ne' heq)⟩
    rintro rfl
    exact hne rfl
  · have hlt : |q - roundCount q * pow2 (roundExp q - 150)| < |q - v| := by
      calc |q - roundCount q * pow2 (roundExp q - 150)| ≤ |q - (2 ^ 23 : ℤ) * pow2 (roundExp q - 150)| := by
            rw [hscale, hscale]
            exact mul_le_mul_of_nonneg_right (hnear _).1 hu.le
        _ = q - 2 ^ 23 * pow2 (roundExp q - 150) := by
            push_cast
            exact abs_of_nonneg (sub_nonneg.mpr (le_of_one_lt_roundExp hq h1))
        _ < q - v := by linarith [le_abs_self v]
        _ ≤ |q - v| := le_abs_self _
    exact ⟨hlt.le, fun _ heq => absurd heq hlt.ne'⟩

end

/-- A pattern whose exponent and fraction spell the exponent `e` and then add a count `c` of its units: the magnitude
is c units, also where c carries into the exponent field. -/
theorem f32_of_count {b : Word} {e c : ℕ} (h1 : 1 ≤ e) (h254 : e ≤ 254) (hc : c ≤ 2 ^ 24) (hlow : 1 < e → 2 ^ 23 ≤ c)
    (htop : e = 254 → c < 2 ^ 24) (hb : b.toNat % 2 ^ 31 = (e - 1) * 2 ^ 23 + c) :
    f32Exp b ≠ 255 ∧ f32Frac b % 2 = c % 2 ∧ f32Mag b = c * pow2 (e - 150) := by
  rw [f32Mag_eq_sig, f32Sig, f32Exp_eq, f32Frac_eq]
  rcases lt_or_ge c (2 ^ 23) with hsub | hnorm
  · have hexp : b.toNat / 2 ^ 23 % 256 = 0 := by omega
    have hfrac : b.toNat % 2 ^ 23 = c := by omega
    have he : e = 1 := by omega
    rw [hexp, hfrac, he]
    exact ⟨by decide, rfl, rfl⟩
  rcases hc.lt_or_eq with hlt | rfl
  · have hexp : b.toNat / 2 ^ 23 % 256 = e := by omega
    have hfrac : b.toNat % 2 ^ 23 = c - 2 ^ 23 := by omega
    rw [hexp, hfrac, if_neg (by omega), Nat.add_sub_cancel' hnorm, max_eq_right (by omega)]
    exact ⟨by omega, by omega, rfl⟩
  · have hexp : b.toNat / 2 ^ 23 % 256 = e + 1 := by omega
    have hfrac : b.toNat % 2 ^ 23 = 0 := by omega
    rw [hexp, hfrac, if_neg (by omega), max_eq_right (by omega)]
    refine ⟨by omega, rfl, ?_⟩
    push_cast
    rw [show (e : ℤ) + 1 - 150 = 1 + (e - 150) by ring, pow2_add, pow2_one]
    ring

section
variable {q : ℚ} (hq : 0 < q) (hlt : q < pow2 128 - pow2 103)
include hq hlt

theorem roundExp_le_of_lt_overflow : roundExp q ≤ 254 :=
  roundExp_le hq (hlt.trans (sub_lt_self _ (pow2_pos _)))

theorem f32MagBits_lt : f32MagBits q < 2 ^ 31 := by
  have h254 := roundExp_le_of_lt_overflow hq hlt
  have hc := roundCount_le hq
  rw [f32MagBits_eq]
  omega

/-- The rounded magnitude as a pattern of either sign: its exponent is finite, the parity of its fraction is that of
the count, and its value is the count of units. -/
theorem f32MagBits_spec {b : Word} (hb : b.toNat % 2 ^ 31 = f32MagBits q) :
    f32Exp b ≠ 255 ∧ (f32Frac b : ℤ) % 2 = roundCount q % 2 ∧ f32Mag b = roundCount q * pow2 (roundExp q - 150) := by
  have h1 := one_le_roundExp q
  have h254 := roundExp_le_of_lt_overflow hq hlt
  have hc := roundCount_le hq
  have hlow := le_roundCount hq
  have htop := roundCount_lt hlt
  rw [f32MagBits_eq] at hb
  lift roundExp q to ℕ using by omega with e
  lift roundCount q to ℕ using roundCount_nonneg hq with c
  norm_cast at h1 h254 hc hlow htop
  rw [show ((e : ℤ) - 1).toNat = e - 1 by omega, Int.toNat_natCast] at hb
  obtain ⟨hexp, hfrac, hmag⟩ := f32_of_count h1 h254 hc hlow htop hb
  exact ⟨hexp, by exact_mod_cast hfrac, hmag⟩

end

theorem rneF32_zero : rneF32 0 = 0x00000000#32 := if_pos rfl

theorem rneF32_of_overflow {q : ℚ} (h : pow2 128 - pow2 103 ≤ |q|) :
    rneF32 q = if 0 < q then 0x7F800000#32 else 0xFF800000#32 := by
  have h0 : q ≠ 0 := by
    rintro rfl
    rw [abs_zero, sub_nonpos, pow2_le_pow2] at h
    omega
  rw [rneF32, if_neg h0, if_pos h]

section
variable {q : ℚ} (h0 : q ≠ 0) (hlt : |q| < pow2 128 - pow2 103)
include h0 hlt

theorem rneF32_toNat : (rneF32 q).toNat = (if q < 0 then 2 ^ 31 else 0) + f32MagBits |q| := by
  have hbits := f32MagBits_lt (abs_pos.mpr h0) hlt
  rw [rneF32, if_neg h0, if_neg hlt.not_ge, BitVec.toNat_ofNat, Nat.mod_eq_of_lt]
  split <;> omega

theorem rneF32_toNat_mod : (rneF32 q).toNat % 2 ^ 31 = f32MagBits |q| := by
  have hbits := f32MagBits_lt (abs_pos.mpr h0) hlt
  rw [rneF32_toNat h0 hlt]
  split <;> omega

theorem rneF32_sign : (rneF32 q).getLsbD 31 = decide (q < 0) := by
  have hbits := f32MagBits_lt (abs_pos.mpr h0) hlt
  rw [getLsbD_31_eq, rneF32_toNat h0 hlt, decide_eq_decide]
  split_ifs with hneg
  · exact iff_of_true (by omega) hneg
  · exact iff_of_false (by omega) hneg

theorem f32Exp_rneF32 : f32Exp (rneF32 q) ≠ 255 := by
  obtain ⟨hexp, -, -⟩ := f32MagBits_spec (abs_pos.mpr h0) hlt (rneF32_toNat_mod h0 hlt)
  exact hexp

theorem f32Frac_rneF32_even_iff : f32Frac (rneF32 q) % 2 = 0 ↔ roundCount |q| % 2 = 0 := by
  obtain ⟨-, hfrac, -⟩ := f32MagBits_spec (abs_pos.mpr h0) hlt (rneF32_toNat_mod h0 hlt)
  omega

theorem f32val_rneF32 :
    f32val (rneF32 q) = if q < 0 then -(roundCount |q| * pow2 (roundExp |q| - 150))
      else roundCount |q| * pow2 (roundExp |q| - 150) := by
  obtain ⟨-, -, hmag⟩ := f32MagBits_spec (abs_pos.mpr h0) hlt (rneF32_toNat_mod h0 hlt)
  rw [f32val, rneF32_sign h0 hlt, hmag]
  simp only [decide_eq_true_eq]

/-- The nearest value of the format, for a quotient of either sign: a negative one is the mirror image. -/
theorem rneF32_nearest {v : ℚ} (hv : OnGridOrBelow (roundExp |q|) v) :
    |q - f32val (rneF32 q)| ≤ |q - v|
      ∧ (v ≠ f32val (rneF32 q) → |q - v| = |q - f32val (rneF32 q)| → f32Frac (rneF32 q) % 2 = 0) := by
  rw [f32Frac_rneF32_even_iff h0 hlt, f32val_rneF32 h0 hlt]
  split_ifs with hneg
  · have h := roundCount_nearest (neg_pos.mpr hneg) (v := -v) (by rw [← abs_of_neg hneg]; exact hv.neg)
    have hmirror (x : ℚ) : |-q - x| = |q - -x| := by
      rw [← abs_neg]
      congr 1
      ring
    rwa [hmirror, hmirror, neg_neg, ← abs_of_neg hneg, ne_eq, neg_eq_iff_eq_neg] at h
  · have hpos : 0 < q := lt_of_le_of_ne (not_lt.mp hneg) h0.symm
    rw [abs_of_pos hpos] at hv ⊢
    exact roundCount_nearest hpos hv

end

/-- Settles O45: every finite value lies on the grid of the result's exponent or below its magnitudes, and the
rounded count of units is nearest among all such. -/
theorem binary32RoundingIsNearestEven : Obligations.Binary32RoundingIsNearestEven := by
  unfold Obligations.Binary32RoundingIsNearestEven
  have hbound : (2 ^ 128 - 2 ^ 103 : ℚ) = pow2 128 - pow2 103 := by
    simp only [pow2_eq]
    norm_cast
  intro q
  rw [hbound]
  refine ⟨?_, fun hover => ?_, fun h0 hlt => ⟨f32Exp_rneF32 h0 hlt, fun b _ => ?_⟩⟩
  · rintro rfl
    exact rneF32_zero
  · rw [rneF32_of_overflow hover]
    exact ⟨fun hpos => if_pos hpos, fun hneg => if_neg hneg.not_gt⟩
  · exact rneF32_nearest h0 hlt (f32val_onGridOrBelow b _)

/-! ### Unfix -/

/-- A quotient of at least the smallest subnormal does not round to a zero of either sign. -/
theorem rneF32_ne_zero {q : ℚ} (hle : pow2 (-149) ≤ |q|) :
    rneF32 q ≠ 0x00000000#32 ∧ rneF32 q ≠ 0x80000000#32 := by
  have hpos : 0 < |q| := (pow2_pos _).trans_le hle
  suffices hne : (rneF32 q).toNat % 2 ^ 31 ≠ 0 from
    ⟨ne_of_apply_ne (·.toNat % 2 ^ 31) hne, ne_of_apply_ne (·.toNat % 2 ^ 31) hne⟩
  rcases le_or_gt (pow2 128 - pow2 103) |q| with hover | hlt
  · rw [rneF32_of_overflow hover]
    split <;> decide
  · have hcount := roundCount_pos hpos hle
    rw [rneF32_toNat_mod (abs_pos.mp hpos) hlt, f32MagBits_eq]
    omega

/-- Only a quotient from the overflow bound on rounds to an infinity (40_datapath.md R74). -/
theorem overflow_of_isInf_rneF32 {q : ℚ} (h : isInf (rneF32 q) = true) : pow2 128 - pow2 103 ≤ |q| := by
  have hexp := (isInf_iff.mp h).1
  by_contra hlt
  refine f32Exp_rneF32 ?_ (not_le.mp hlt) hexp
  rintro rfl
  exact absurd hexp (by decide)

/-- The first binary32 value above 2^-96 is a whole unit above it. -/
theorem scale_above {s : Word} (h : pow2 (-96) < f32val s) : (2 ^ 23 + 1) * pow2 (-119) ≤ f32val s := by
  have hu := pow2_pos (-119)
  have h96 : pow2 (-96) = 2 ^ 23 * pow2 (-119) := by
    simp only [pow2_eq]
    norm_num
  rw [h96] at h
  obtain ⟨m, hm⟩ | ⟨-, hbelow⟩ := f32val_onGridOrBelow s 31
  · have hlt : (2 ^ 23 : ℤ) < m := by
      rw [hm] at h
      exact_mod_cast lt_of_mul_lt_mul_right h hu.le
    have hle : (2 ^ 23 + 1 : ℚ) ≤ m := by exact_mod_cast hlt
    rw [hm]
    exact mul_le_mul_of_nonneg_right hle hu.le
  · exact absurd (hbelow.trans h) (not_lt.mpr (le_abs_self _))

section
variable {r : ℤ} {s : Word} (hs : scaleOk s = true)
include hs

theorem abs_quotient : |(r : ℚ) / f32val s| = |(r : ℚ)| / f32val s := by
  rw [abs_div, abs_of_pos (scaleOk_iff.mp hs).2]

/-- A legal scale is below 2^128, so the quotient of a non-zero integer is above 2^-149 (40_datapath.md R75). -/
theorem unfix_ne_zero (hr : r ≠ 0) : unfix r s ≠ 0x00000000#32 ∧ unfix r s ≠ 0x80000000#32 := by
  obtain ⟨hexp, hpos⟩ := scaleOk_iff.mp hs
  have hone : (1 : ℚ) ≤ |(r : ℚ)| := by exact_mod_cast Int.one_le_abs hr
  have hlt : f32val s < pow2 128 := (le_abs_self _).trans_lt (abs_f32val s ▸ f32Mag_lt_of_finite hexp)
  refine rneF32_ne_zero ?_
  rw [abs_quotient hs, le_div_iff₀ hpos]
  calc pow2 (-149) * f32val s ≤ pow2 (-149) * pow2 128 := mul_le_mul_of_nonneg_left hlt.le (pow2_pos _).le
    _ ≤ pow2 0 := by
      rw [← pow2_add]
      exact pow2_le_pow2.mpr (by decide)
    _ = 1 := pow2_zero
    _ ≤ |(r : ℚ)| := hone

/-- The least scale above 2^-96 keeps the quotient of 2^32 - 1 below the overflow bound. -/
theorem scale_le_of_isInf_unfix (hr : |r| < 2 ^ 32) (hinf : isInf (unfix r s) = true) : f32val s ≤ pow2 (-96) := by
  have hover := overflow_of_isInf_rneF32 hinf
  rw [abs_quotient hs, le_div_iff₀ (scaleOk_iff.mp hs).2] at hover
  have hmax : |(r : ℚ)| ≤ 2 ^ 32 - 1 := by exact_mod_cast Int.le_sub_one_of_lt hr
  have hbound : 0 ≤ pow2 128 - pow2 103 := sub_nonneg.mpr (pow2_le_pow2.mpr (by decide))
  have hprod : (2 ^ 32 : ℚ) - 1 < (pow2 128 - pow2 103) * ((2 ^ 23 + 1) * pow2 (-119)) := by
    simp only [pow2_eq]
    norm_num
  by_contra hgt
  have hleast := mul_le_mul_of_nonneg_left (scale_above (not_le.mp hgt)) hbound
  linarith

end

/-- Settles O47: a legal scale is below 2^128, so no quotient vanishes, and above 2^-96 none reaches the bound. -/
theorem unfixZeroAndOverflow : Obligations.UnfixZeroAndOverflow := by
  unfold Obligations.UnfixZeroAndOverflow
  intro r s hs
  refine ⟨?_, unfix_ne_zero hs, fun hr hinf => ?_⟩
  · rw [unfix, Int.cast_zero, zero_div, rneF32_zero]
  · rw [← pow2_eq]
    exact scale_le_of_isInf_unfix hs hr hinf

end Sys2Proof.Machine
end

section
/-! PROOF. The datapath family (40_datapath.md), what an encode and a decode of a field do together: collisions (R77),
round trips and disjoint fields (R78). -/

namespace Sys2Proof.Machine

namespace State

section
variable {tb vc w : Nat} {s : State} {sg : Bool}

theorem fieldBits_le (hs : Schema tb vc w) : 8 * w ≤ 32 := by
  obtain ⟨-, -, -, h4⟩ := hs
  omega

/-- The checks of an encode, on a legal schema inside PBUF. -/
theorem encFault_none_of_schema {t : ValueType} {v : Bool} (hs : Schema tb vc w) (hcap : s.cursor + w ≤ s.bufCap)
    (hscale : t = .f32 → s.ScaleLegal) (hnan : t = .f32 → v = true → isNaN s.vin = false) :
    s.encFault t v tb vc = none := by
  rw [encFault_eq_none, fieldWidth_of_schema hs]
  exact ⟨schemaOk_of_schema hs, hcap, hscale, hnan⟩

/-- The checks of a decode, on a legal schema inside PBUF. -/
theorem decFault_none_of_schema {t : ValueType} (hs : Schema tb vc w) (hcap : s.cursor + w ≤ s.bufCap)
    (hwidth : 8 * w ≤ t.width) (hscale : t = .f32 → s.ScaleLegal) : s.decFault t tb vc = none := by
  rw [decFault_eq_none, fieldWidth_of_schema hs]
  exact ⟨schemaOk_of_schema hs, hcap, decide_eq_true hwidth, hscale⟩

/-- A decode after an encode of the same field reads the low w bytes of the pattern packed. -/
theorem decodeSequence_finishEnc {t : ValueType} (hs : Schema tb vc w) (h : s.decFault t tb vc = none) (x : Word) :
    (s.finishEnc w x).decodeSequence t tb vc sg
      = (s.finishEnc w x).finishDec w (!isSentinel w (x.setWidth (8 * w)) sg)
          (if isSentinel w (x.setWidth (8 * w)) sg then 0#32
            else decPattern t w (x.setWidth (8 * w)) sg s.scale) := by
  have hw := fieldWidth_of_schema hs
  subst hw
  rw [decodeSequence_of_none (by rwa [decFault_finishEnc]), finishEnc_cursor, finishEnc_memRead, finishEnc_scale]

theorem encFault_none_of_nbytes {t : ValueType} {v : Bool} (h : (s.encodeSequence t v tb vc sg).nbytes ≠ 0#3) :
    s.encFault t v tb vc = none := by
  obtain ⟨c, -, hc⟩ | ⟨-, hnone, -⟩ := s.encodeSequence_cases t v tb vc sg
  · exact absurd (by rw [hc, raise_nbytes]) h
  · exact hnone

theorem decFault_none_of_nbytes {t : ValueType} (h : (s.decodeSequence t tb vc sg).nbytes ≠ 0#3) :
    s.decFault t tb vc = none := by
  obtain ⟨c, -, hc⟩ | ⟨-, hnone, -⟩ := s.decodeSequence_cases t tb vc sg
  · exact absurd (by rw [hc, raise_nbytes]) h
  · exact hnone

end

end State

section
variable {tb vc w : Nat} {s : State} {i : Instr}

theorem encCompletes_of_finishEnc {x : Word} (hs : Schema tb vc w) (h : exec i s = .next (s.finishEnc w x)) :
    EncCompletes i s w x := by
  refine ⟨_, h, State.nbytes_of_schema hs, fun k hk => ?_, fun a => s.finishEnc_pbufByte_outside x, rfl, rfl, rfl, rfl,
    s.finishEnc_sameOperands w x⟩
  rw [s.finishEnc_pbufByte_inside w x hk, beByte_setWidth x hk]

theorem decCompletes_of_finishDec {valid : Bool} {vout : Word} (hs : Schema tb vc w)
    (h : exec i s = .next (s.finishDec w valid vout)) : DecCompletes i s w valid vout :=
  ⟨_, h, State.nbytes_of_schema hs, rfl, rfl, fun _ => rfl, rfl, rfl, s.finishDec_sameOperands w valid vout⟩

end

/-! ### Round trips -/

/-- What an encode of an invalid reading packs is the sentinel of the field's own width (41_encode.md R79). -/
theorem encPattern_invalid_setWidth {w : Nat} (hw : 8 * w ≤ 32) (t : ValueType) (sg : Bool) (vin scale : Word) :
    (encPattern t false w sg vin scale).setWidth (8 * w) = sentinel w sg := by
  rw [encPattern, if_pos rfl, BitVec.setWidth_setWidth (by omega), BitVec.setWidth_eq]

theorem isSentinel_sentinel (w : Nat) (sg : Bool) : isSentinel w (sentinel w sg) sg = true := beq_self_eq_true _

/-- Settles O37: the encode packs the sentinel, so the decode's detector fires. -/
theorem invalidRoundTrip : Obligations.InvalidRoundTrip := by
  unfold Obligations.InvalidRoundTrip
  intro te td tb vc sg s a b hae ha hbe hb
  rw [exec_encOf, Host.Outcome.next.injEq] at hae
  rw [exec_decOf, Host.Outcome.next.injEq] at hbe
  subst hae hbe
  have henc := State.encFault_none_of_nbytes ha
  obtain ⟨hschema, -, -, -⟩ := State.encFault_eq_none.mp henc
  have hs := schema_of_schemaOk hschema
  have hdec := State.decFault_none_of_nbytes hb
  rw [State.encodeSequence_of_none henc, State.decFault_finishEnc] at hdec
  rw [State.encodeSequence_of_none henc, State.decodeSequence_finishEnc hs hdec,
    encPattern_invalid_setWidth (State.fieldBits_le hs), isSentinel_sentinel]
  exact ⟨rfl, rfl, rfl⟩

/-- VOUT of a decode, from the raw integer of its field (42_decode.md R85). -/
theorem decPattern_of_raw {t : ValueType} {w : Nat} {u : BitVec (8 * w)} {sg : Bool} {n : ℤ} (hw : w ≤ 4)
    (h : raw w u sg = n) (scale : Word) :
    decPattern t w u sg scale = if t = .f32 then unfix n scale else narrow t (BitVec.ofInt 32 n) := by
  rw [decPattern, raw32_eq_ofInt_raw w u sg hw, h]

/-- An encode that packs an integer of its field's range other than the sentinel, then a decode of that field: both
complete, and the output is made from that integer. -/
theorem roundTrip_of_inFieldRange {te td : ValueType} {tb vc w : Nat} {sg : Bool} {s : State} {n : ℤ}
    (hs : Schema tb vc w) (henc : s.encFault te true tb vc = none) (hdec : s.decFault td tb vc = none)
    (hpat : encPattern te true w sg s.vin s.scale = BitVec.ofInt 32 n) (hrange : InFieldRange w sg n)
    (hsent : ¬ ∀ k < w, (BitVec.ofInt 32 n).extractLsb' (8 * k) 8 = sentinelByte sg) :
    ∃ a b, exec (encOf te true tb vc sg) s = .next a ∧ exec (decOf td tb vc sg) a = .next b
      ∧ a.nbytes.toNat = w ∧ b.nbytes.toNat = w ∧ b.valid = true
      ∧ b.vout = if td = .f32 then unfix n s.scale else narrow td (BitVec.ofInt 32 n) := by
  have ⟨_, _, h1, h4⟩ := hs
  rw [← isSentinel_setWidth_iff, Bool.not_eq_true] at hsent
  have hraw := raw_setWidth_ofInt h1 h4 hrange
  have hnbytes := State.nbytes_of_schema hs
  refine ⟨_, _, exec_encOf .., exec_decOf .., ?_⟩
  rw [State.encodeSequence_of_none henc, fieldWidth_of_schema hs, hpat, State.decodeSequence_finishEnc hs hdec, hsent,
    decPattern_of_raw h4 hraw]
  exact ⟨hnbytes, hnbytes, rfl, rfl⟩

/-- Settles O38: VIN is the pattern of an integer of the field's range, so it packs and reassembles to itself. -/
theorem integerRoundTrip : Obligations.IntegerRoundTrip := by
  unfold Obligations.IntegerRoundTrip
  intro tb vc w sg s hs hcap hrange hsent
  obtain ⟨n, hvin, hn⟩ : ∃ n, BitVec.ofInt 32 n = s.vin ∧ InFieldRange w sg n := by
    cases sg with
    | true => exact ⟨s.vin.toInt, BitVec.ofInt_toInt, hrange⟩
    | false =>
      have hle : (s.vin.toNat : ℤ) ≤ 2 ^ (8 * w) - 1 := by
        have hlt : s.vin.toNat < 2 ^ (8 * w) := Nat.lt_of_le_sub_one (by positivity) hrange
        exact Int.le_sub_one_of_lt (by exact_mod_cast hlt)
      exact ⟨s.vin.toNat, by simp, Int.natCast_nonneg _, hle⟩
  have henc : s.encFault .i32 true tb vc = none := State.encFault_none_of_schema hs hcap nofun nofun
  have hdec : s.decFault .i32 tb vc = none :=
    State.decFault_none_of_schema hs hcap (State.fieldBits_le hs) nofun
  have h := roundTrip_of_inFieldRange hs henc hdec hvin.symm hn (by rwa [hvin])
  rwa [hvin] at h

/-- Dividing a rounded product by the scale misses the input by at most half a quantum (40_datapath.md R78). -/
theorem abs_rneInt_div_sub_le {f : ℚ} (hf : 0 < f) (x : ℚ) : |(rneInt (x * f) : ℚ) / f - x| ≤ 1 / (2 * f) := by
  calc |(rneInt (x * f) : ℚ) / f - x| = |x * f - rneInt (x * f)| / f := by
        rw [abs_sub_comm, ← abs_of_pos hf, ← abs_div, abs_of_pos hf]
        congr 1
        field_simp
    _ ≤ 1 / 2 / f := div_le_div_of_nonneg_right (abs_sub_rneInt_le _) hf.le
    _ = 1 / (2 * f) := by rw [div_div]

/-- Settles O39: the scaled integer packs and reassembles to itself, so the divider gets the n the multiplier made. -/
theorem floatRoundTrip : Obligations.FloatRoundTrip := by
  unfold Obligations.FloatRoundTrip
  intro tb vc w sg s hs hcap hscale hnan n hrange hsent
  have henc : s.encFault .f32 true tb vc = none :=
    State.encFault_none_of_schema hs hcap (fun _ => hscale) fun _ _ => hnan
  have hdec : s.decFault .f32 tb vc = none :=
    State.decFault_none_of_schema hs hcap (State.fieldBits_le hs) fun _ => hscale
  obtain ⟨a, b, ha, hb, hna, hnb, hvalid, hvout⟩ := roundTrip_of_inFieldRange hs henc hdec rfl hrange hsent
  refine ⟨a, b, ha, hb, hna, hnb, hvalid, hvout, fun _ hn => ?_⟩
  rw [hn]
  exact abs_rneInt_div_sub_le (scaleOk_iff.mp hscale).2 _

/-! ### Disjoint fields -/

namespace State

/-- An encode, faulting or not, keeps all that a decode of another field reads, and what such a decode would leave. -/
theorem encodeSequence_frame (s : State) (t : ValueType) (v : Bool) {tb vc w : Nat} (sg : Bool) (hs : Schema tb vc w) :
    s.SameOperands (s.encodeSequence t v tb vc sg)
      ∧ (s.encodeSequence t v tb vc sg).vout = s.vout
      ∧ (s.encodeSequence t v tb vc sg).valid = s.valid
      ∧ ∀ a, a < s.cursor ∨ s.cursor + w ≤ a → (s.encodeSequence t v tb vc sg).pbufByte a = s.pbufByte a := by
  obtain ⟨c, -, hc⟩ | ⟨w', -, hs', -, hc⟩ := s.encodeSequence_cases t v tb vc sg
  · rw [hc]
    exact ⟨(s.raise_tookFault c).operands, rfl, rfl, fun _ _ => rfl⟩
  · obtain rfl : w' = w := (fieldWidth_of_schema hs').symm.trans (fieldWidth_of_schema hs)
    rw [hc]
    exact ⟨s.finishEnc_sameOperands _ _, rfl, rfl, fun a => s.finishEnc_pbufByte_outside _⟩

/-- A decode depends on the operands, the capacity and its own field, and a faulting one keeps the last output. -/
theorem decodeSequence_congr {s t : State} {td : ValueType} {tb vc w : Nat} {sg : Bool} (hs : Schema tb vc w)
    (hscale : t.scale = s.scale) (hoffset : t.offset = s.offset) (hcap : t.bufTop = s.bufTop)
    (hvout : t.vout = s.vout) (hvalid : t.valid = s.valid)
    (hfield : ∀ k < w, t.pbufByte (s.cursor + k) = s.pbufByte (s.cursor + k)) :
    (t.decodeSequence td tb vc sg).vout = (s.decodeSequence td tb vc sg).vout
      ∧ (t.decodeSequence td tb vc sg).valid = (s.decodeSequence td tb vc sg).valid
      ∧ (t.decodeSequence td tb vc sg).nbytes = (s.decodeSequence td tb vc sg).nbytes := by
  have hcheck : t.decFault td tb vc = s.decFault td tb vc := by
    rw [decFault, decFault, bufCap_congr hcap, cursor_congr hoffset, hscale]
  cases h : s.decFault td tb vc with
  | some c =>
    rw [decodeSequence_of_fault h, decodeSequence_of_fault (hcheck.trans h)]
    exact ⟨hvout, hvalid, rfl⟩
  | none =>
    rw [decodeSequence_of_none h, decodeSequence_of_none (hcheck.trans h), fieldWidth_of_schema hs,
      cursor_congr hoffset, memRead_congr hfield, hscale]
    exact ⟨rfl, rfl, rfl⟩

end State

/-- Settles O40: the encode changes no byte of the decode's field and no register the decode reads. -/
theorem disjointFieldsDoNotInterfere : Obligations.DisjointFieldsDoNotInterfere := by
  unfold Obligations.DisjointFieldsDoNotInterfere
  intro i j s t a b p q wi wj hi hj hsi hsj hdisj ht ha hb
  rw [exec_enc hj, Host.Outcome.next.injEq] at ht
  rw [exec_dec hi, Host.Outcome.next.injEq] at ha hb
  subst ht ha hb
  obtain ⟨hops, hvout, hvalid, hbytes⟩ :=
    { s with offset := q }.encodeSequence_frame j.valueType j.validFlag j.signed hsj
  refine State.decodeSequence_congr hsi hops.scale rfl hops.bufTop hvout hvalid fun k hk => ?_
  refine (State.pbufByte_congr rfl rfl _).trans (hbytes _ ?_)
  simp only [State.cursor]
  omega

/-! ### Collisions -/

/-- The low n bits of a word, zero-extended (40_datapath.md R70). -/
theorem lowBits_setWidth (n : Nat) (x : Word) :
    (x.extractLsb' 0 n).setWidth 32 = BitVec.ofNat 32 (x.toNat % 2 ^ n) := by
  rw [← BitVec.ofNat_toNat, BitVec.extractLsb'_toNat, Nat.shiftRight_zero]

/-- Settles O41: the encode of either kind packs x, and the decode's detector fires on x's low bytes. -/
theorem collidingValueDecodesInvalid : Obligations.CollidingValueDecodesInvalid := by
  unfold Obligations.CollidingValueDecodesInvalid
  intro te td tb vc w sg s hs hcap hwidth hscale hnan x hx
  have hpat : encPattern te true w sg s.vin s.scale = x := by
    cases te with
    | i32 | f32 | u32 => rfl
    | u8 => exact lowBits_setWidth 8 s.vin
    | u16 => exact lowBits_setWidth 16 s.vin
  have henc : exec (encOf te true tb vc sg) s = .next (s.finishEnc w x) := by
    rw [exec_encOf, State.encodeSequence_of_none, fieldWidth_of_schema hs, hpat]
    exact State.encFault_none_of_schema hs hcap (fun h => hscale (.inl h)) fun h _ => hnan h
  refine ⟨encCompletes_of_finishEnc hs henc, fun a ha => decCompletes_of_finishDec hs ?_⟩
  rw [henc, Host.Outcome.next.injEq] at ha
  subst ha
  rw [exec_decOf, State.decodeSequence_finishEnc hs, isSentinel_setWidth_iff.mpr hx]
  · rfl
  · exact State.decFault_none_of_schema hs hcap hwidth fun h => hscale (.inr h)

end Sys2Proof.Machine
end

section
/-! PROOF. The encode family (41_encode.md): what each encode command packs (R79 to R84), and that no command without a
valid input reads VIN (R79, 42_decode.md R85). -/

namespace Sys2Proof.Machine

/-! ### What an encode packs -/

/-- The sentinel 32 bits wide, of which a w-byte field takes the low w bytes (40_datapath.md R64). -/
def sentinelWord (sg : Bool) : Word := if sg then 0x7F7F7F7F#32 else 0xFFFFFFFF#32

theorem sentinelWord_byte (sg : Bool) {j : Nat} (hj : j < 4) :
    (sentinelWord sg).extractLsb' (8 * j) 8 = sentinelByte sg := by
  revert sg j
  decide

theorem sentinelWord_setWidth {w : Nat} (hw : 8 * w ≤ 32) (sg : Bool) :
    (sentinelWord sg).setWidth (8 * w) = sentinel w sg := by
  refine beByte_ext fun k hk => ?_
  rw [beByte_setWidth _ hk, beByte_sentinel w sg hk]
  exact sentinelWord_byte sg (by omega)

/-- The low w bytes of an encode's pattern are those of its valid input's pattern `x`, or of the sentinel
(41_encode.md R79). -/
theorem encPattern_setWidth {w : Nat} (hw : 8 * w ≤ 32) {t : ValueType} {sg : Bool} {vin scale x : Word}
    (hx : encPattern t true w sg vin scale = x) (v : Bool) :
    (encPattern t v w sg vin scale).setWidth (8 * w) = (if v then x else sentinelWord sg).setWidth (8 * w) := by
  cases v with
  | true => rw [hx, if_pos rfl]
  | false => rw [encPattern_invalid_setWidth hw, if_neg Bool.false_ne_true, sentinelWord_setWidth hw]

/-- The packer takes the low w bytes of its pattern and nothing else (40_datapath.md R66). -/
theorem State.finishEnc_congr (s : State) {w : Nat} {x y : Word} (h : x.setWidth (8 * w) = y.setWidth (8 * w)) :
    s.finishEnc w x = s.finishEnc w y := by
  rw [finishEnc, finishEnc, h]

/-- The encode sequence of any value type completes, with the pattern `x` of a valid input or with the sentinel
(41_encode.md R79). -/
theorem encOf_completes {t : ValueType} {v sg : Bool} {tb vc w : Nat} {s : State} {x : Word} (hs : Schema tb vc w)
    (hcap : s.cursor + w ≤ s.bufCap) (hscale : t = .f32 → s.ScaleLegal)
    (hnan : t = .f32 → v = true → isNaN s.vin = false) (hx : encPattern t true w sg s.vin s.scale = x) :
    EncCompletes (encOf t v tb vc sg) s w (if v then x else sentinelWord sg) := by
  refine encCompletes_of_finishEnc hs ?_
  rw [exec_encOf, State.encodeSequence_of_none (State.encFault_none_of_schema hs hcap hscale hnan),
    fieldWidth_of_schema hs, s.finishEnc_congr (encPattern_setWidth (State.fieldBits_le hs) hx v)]

/-- Settles O16: an I32 input is packed as it is. -/
theorem encI32Result : Obligations.EncI32Result := by
  unfold Obligations.EncI32Result
  intro v sg tb vc w s hs hcap
  exact encOf_completes (t := .i32) hs hcap nofun nofun rfl

/-- Settles O17: an F32 input is packed as `fix` gives it, and its two checks are the hypotheses. -/
theorem encF32Result : Obligations.EncF32Result := by
  unfold Obligations.EncF32Result
  intro v sg tb vc w s hs hcap hscale hnan
  exact encOf_completes (t := .f32) hs hcap (fun _ => hscale) (fun _ => hnan) rfl

/-- Settles O18: a U8 input is the low 8 bits of VIN. -/
theorem encU8Result : Obligations.EncU8Result := by
  unfold Obligations.EncU8Result
  intro v sg tb vc w s hs hcap
  exact encOf_completes (t := .u8) hs hcap nofun nofun (lowBits_setWidth 8 s.vin)

/-- Settles O19: a U16 input is the low 16 bits of VIN. -/
theorem encU16Result : Obligations.EncU16Result := by
  unfold Obligations.EncU16Result
  intro v sg tb vc w s hs hcap
  exact encOf_completes (t := .u16) hs hcap nofun nofun (lowBits_setWidth 16 s.vin)

/-- Settles O20: a U32 input is packed as it is. -/
theorem encU32Result : Obligations.EncU32Result := by
  unfold Obligations.EncU32Result
  intro v sg tb vc w s hs hcap
  exact encOf_completes (t := .u32) hs hcap nofun nofun rfl

/-! ### VIN -/

namespace State

section
variable (s : State) (x : Word) (t : ValueType) (tb vc : Nat) (sg : Bool)

/-- Only the NaN check reads VIN, and it applies to a valid input alone (60_exceptions.md R94). -/
theorem encFault_vin : { s with vin := x }.encFault t false tb vc = s.encFault t false tb vc := by
  simp [encFault]

theorem decFault_vin : { s with vin := x }.decFault t tb vc = s.decFault t tb vc := rfl

theorem encPattern_vin (w : Nat) (y scale : Word) :
    encPattern t false w sg x scale = encPattern t false w sg y scale := rfl

theorem encodeSequence_vin :
    { s with vin := x }.encodeSequence t false tb vc sg
      = { s.encodeSequence t false tb vc sg with vin := x } := by
  have hcheck := s.encFault_vin x t tb vc
  cases h : s.encFault t false tb vc with
  | some k =>
    rw [encodeSequence_of_fault h, encodeSequence_of_fault (hcheck.trans h)]
    rfl
  | none =>
    rw [encodeSequence_of_none h, encodeSequence_of_none (hcheck.trans h), encPattern_vin x t sg _ s.vin]
    rfl

theorem decodeSequence_vin :
    { s with vin := x }.decodeSequence t tb vc sg = { s.decodeSequence t tb vc sg with vin := x } := by
  have hcheck := s.decFault_vin x t tb vc
  cases h : s.decFault t tb vc with
  | some k =>
    rw [decodeSequence_of_fault h, decodeSequence_of_fault (hcheck.trans h)]
    rfl
  | none =>
    rw [decodeSequence_of_none h, decodeSequence_of_none (hcheck.trans h)]
    rfl

end

end State

/-- Settles O35: neither the checks nor the pattern of an invalid encode read VIN, and a decode has no use for it. -/
theorem invalidEncodeIgnoresVin : Obligations.InvalidEncodeIgnoresVin := by
  unfold Obligations.InvalidEncodeIgnoresVin
  intro i s t x hv hexec
  cases hi : i.isEnc with
  | true =>
    rw [exec_enc hi, hv] at hexec ⊢
    cases hexec
    rw [State.encodeSequence_vin]
  | false =>
    rw [exec_dec hi] at hexec ⊢
    cases hexec
    rw [State.decodeSequence_vin]

end Sys2Proof.Machine
end

section
/-! PROOF. The decode family (42_decode.md): the output and the validity of each decode command (R85 to R90). -/

namespace Sys2Proof.Machine

namespace State

section
variable {s : State} {w : Nat} {u : BitVec (8 * w)} (hu : s.FieldIs w u)
include hu

/-- What a decode reads at the cursor is the field's big-endian pattern (00_scope.md R10). -/
theorem memRead_of_fieldIs : s.memRead s.cursor w = u := memRead_eq_of_bytes hu

/-- The detector on a field's pattern compares the bytes that PBUF holds (40_datapath.md R64, R65). -/
theorem isSentinel_iff_readsSentinel {sg : Bool} : isSentinel w u sg = true ↔ s.ReadsSentinel w sg := by
  rw [isSentinel, beq_iff_eq]
  constructor
  · rintro rfl k hk
    exact (hu k hk).trans (beByte_sentinel w sg hk)
  · intro hsent
    refine beByte_ext fun k hk => ?_
    rw [beByte_sentinel w sg hk]
    exact (hu k hk).symm.trans (hsent k hk)

end

end State

/-- The decode sequence of any value type completes, with an invalid zero for the sentinel and the output `x` of any
other field (42_decode.md R85). -/
theorem decOf_completes {t : ValueType} {sg : Bool} {tb vc w : Nat} {s : State} {u : BitVec (8 * w)} {x : Word}
    (hs : Schema tb vc w) (hcap : s.cursor + w ≤ s.bufCap) (hwidth : 8 * w ≤ t.width) (hu : s.FieldIs w u)
    (hscale : t = .f32 → s.ScaleLegal) (hx : decPattern t w u sg s.scale = x) :
    (s.ReadsSentinel w sg → DecCompletes (decOf t tb vc sg) s w false 0#32)
      ∧ (¬ s.ReadsSentinel w sg → DecCompletes (decOf t tb vc sg) s w true x) := by
  have hexec : exec (decOf t tb vc sg) s
      = .next (s.finishDec w (!isSentinel w u sg) (if isSentinel w u sg then 0#32 else x)) := by
    rw [exec_decOf, State.decodeSequence_of_none (State.decFault_none_of_schema hs hcap hwidth hscale),
      fieldWidth_of_schema hs, State.memRead_of_fieldIs hu, hx]
  rw [← State.isSentinel_iff_readsSentinel hu, Bool.not_eq_true]
  exact ⟨fun hsent => decCompletes_of_finishDec hs (by rwa [hsent] at hexec),
    fun hsent => decCompletes_of_finishDec hs (by rwa [hsent] at hexec)⟩

/-- The low n bits of an integer's 32-bit pattern, zero-extended, are the integer mod 2^n (40_datapath.md R76). -/
theorem lowBits_ofInt {n : Nat} (hn : n ≤ 32) (z : ℤ) :
    ((BitVec.ofInt 32 z).extractLsb' 0 n).setWidth 32 = BitVec.ofInt 32 (z % 2 ^ n) := by
  have hnonneg : 0 ≤ z % 2 ^ n := Int.emod_nonneg z (by positivity)
  calc ((BitVec.ofInt 32 z).extractLsb' 0 n).setWidth 32
      = (BitVec.ofInt n z).setWidth 32 := by rw [← BitVec.setWidth_eq_extractLsb' hn, setWidth_ofInt hn]
    _ = BitVec.ofNat 32 (z % 2 ^ n).toNat := by
      rw [← BitVec.ofNat_toNat, BitVec.toNat_ofInt, Nat.cast_pow, Nat.cast_ofNat]
    _ = BitVec.ofInt 32 (z % 2 ^ n) := by rw [← BitVec.ofInt_natCast, Int.toNat_of_nonneg hnonneg]

/-- The output of an integer decode, from the field's integer (42_decode.md R85). -/
theorem decPattern_integer {t : ValueType} (ht : t ≠ .f32) {w : Nat} (hw : w ≤ 4) (u : BitVec (8 * w)) (sg : Bool)
    (scale : Word) : decPattern t w u sg scale = narrow t (BitVec.ofInt 32 (raw w u sg)) := by
  rw [decPattern_of_raw hw rfl, if_neg ht]

/-- Settles O21: an I32 output is the 32-bit pattern of the field's integer. -/
theorem decI32Result : Obligations.DecI32Result := by
  unfold Obligations.DecI32Result
  intro sg tb vc w s u hs hcap hu
  have ⟨_, _, _, hw⟩ := hs
  exact decOf_completes (t := .i32) hs hcap (State.fieldBits_le hs) hu nofun
    (decPattern_integer (by decide) hw u sg s.scale)

/-- Settles O22: an F32 output is the field's integer divided by SCALE, whose check is the hypothesis. -/
theorem decF32Result : Obligations.DecF32Result := by
  unfold Obligations.DecF32Result
  intro sg tb vc w s u hs hcap hu hscale
  refine decOf_completes (t := .f32) hs hcap (State.fieldBits_le hs) hu (fun _ => hscale) ?_
  rw [decPattern, if_pos rfl, unfix, raw, apply_ite (Int.cast : ℤ → ℚ)]

/-- Settles O23: a U8 output is the field's integer mod 2^8, which is the field. -/
theorem decU8Result : Obligations.DecU8Result := by
  unfold Obligations.DecU8Result
  intro sg tb vc s u hs hcap hu
  refine decOf_completes (t := .u8) hs hcap (by decide) hu nofun ?_
  calc decPattern .u8 1 u sg s.scale
      = narrow .u8 (BitVec.ofInt 32 (raw 1 u sg)) := decPattern_integer (by decide) (by decide) u sg s.scale
    _ = BitVec.ofInt 32 (raw 1 u sg % 2 ^ 8) := lowBits_ofInt (by decide) _
    _ = BitVec.ofNat 32 u.toNat := by rw [raw_emod, BitVec.ofInt_natCast]

/-- Settles O24: a U16 output is the field's integer mod 2^16. -/
theorem decU16Result : Obligations.DecU16Result := by
  unfold Obligations.DecU16Result
  intro sg tb vc w s u hs hw hcap hu
  refine decOf_completes (t := .u16) hs hcap (Nat.mul_le_mul_left 8 hw) hu nofun ?_
  calc decPattern .u16 w u sg s.scale
      = narrow .u16 (BitVec.ofInt 32 (raw w u sg)) := decPattern_integer (by decide) (by omega) u sg s.scale
    _ = BitVec.ofInt 32 (raw w u sg % 2 ^ 16) := lowBits_ofInt (by decide) _

/-- Settles O25: a U32 output is the extended field as it is. -/
theorem decU32Result : Obligations.DecU32Result := by
  unfold Obligations.DecU32Result
  intro sg tb vc w s u hs hcap hu
  exact decOf_completes (t := .u32) hs hcap (State.fieldBits_le hs) hu nofun rfl

end Sys2Proof.Machine
end

section
/-! PROOF. The exceptions family (60_exceptions.md): the fault codes (R93), which fault a command raises (R94 to R96),
and what clears the first cause (R97). -/

namespace Sys2Proof.Machine

/-! ### Which fault a command raises -/

/-- The first fault that applies to a command (60_exceptions.md R94). -/
def State.commandFault (s : State) (i : Instr) : Option FaultCode :=
  if i.isEnc then s.encFault i.valueType i.validFlag i.totalBytes i.valueCount
  else s.decFault i.valueType i.totalBytes i.valueCount

section
variable {i : Instr} {s : State} {w : Nat}

/-- A command raises the fault its checks find, with all that a fault does and no more (60_exceptions.md R95, R96). -/
theorem faults_of_commandFault {k : FaultCode} (h : s.commandFault i = some k) : Faults i s k.code := by
  refine ⟨s.raise k, ?_, s.raise_tookFault k⟩
  cases hi : i.isEnc with
  | true => rw [exec_enc hi, State.encodeSequence_of_fault (by simpa [State.commandFault, hi] using h)]
  | false => rw [exec_dec hi, State.decodeSequence_of_fault (by simpa [State.commandFault, hi] using h)]

namespace State

theorem commandFault_fSchema (h : ∀ w, ¬ Schema i.totalBytes i.valueCount w) :
    s.commandFault i = some .fSchema := by
  unfold commandFault
  split
  · exact encFault_schema (schemaOk_eq_false h)
  · exact decFault_schema (schemaOk_eq_false h)

variable (hs : Schema i.totalBytes i.valueCount w)
include hs

theorem commandFault_fRange (h : s.bufCap < s.cursor + w) : s.commandFault i = some .fRange := by
  have hok := schemaOk_of_schema hs
  rw [← fieldWidth_of_schema hs] at h
  unfold commandFault
  split
  · simp [encFault, hok, h]
  · simp [decFault, hok, h]

variable (hcap : s.cursor + w ≤ s.bufCap)
include hcap

/-- On a legal schema inside PBUF, an encode checks SCALE and then VIN, both for F32 alone. -/
theorem commandFault_enc (hi : i.isEnc = true) :
    s.commandFault i =
      if i.valueType = .f32 ∧ scaleOk s.scale = false then some .fScale
      else if i.valueType = .f32 ∧ i.validFlag = true ∧ isNaN s.vin = true then some .fNan
      else none := by
  simp [commandFault, encFault, hi, schemaOk_of_schema hs, fieldWidth_of_schema hs, hcap]

/-- On a legal schema inside PBUF, a decode checks the width of its output and then SCALE. -/
theorem commandFault_dec (hi : i.isEnc = false) :
    s.commandFault i =
      if widthOk i.valueType w = false then some .fWidth
      else if i.valueType = .f32 ∧ scaleOk s.scale = false then some .fScale
      else none := by
  simp [commandFault, decFault, hi, schemaOk_of_schema hs, fieldWidth_of_schema hs, hcap]

theorem commandFault_fWidth (hi : i.isEnc = false) (h : i.valueType.width < 8 * w) :
    s.commandFault i = some .fWidth := by
  have hwidth : widthOk i.valueType w = false := decide_eq_false (Nat.not_le.mpr h)
  rw [commandFault_dec hs hcap hi, if_pos hwidth]

/-- An F32 output is as wide as any legal field, so its decode gets as far as SCALE (40_datapath.md R76). -/
theorem commandFault_fScale (ht : i.valueType = .f32) (h : ¬ s.ScaleLegal) : s.commandFault i = some .fScale := by
  have hscale := Bool.eq_false_of_not_eq_true h
  cases hi : i.isEnc with
  | true => rw [commandFault_enc hs hcap hi, if_pos ⟨ht, hscale⟩]
  | false =>
    have hwidth : widthOk i.valueType w = true := by
      rw [ht]
      exact decide_eq_true (fieldBits_le hs)
    rw [commandFault_dec hs hcap hi, if_neg (by simp [hwidth]), if_pos ⟨ht, hscale⟩]

theorem commandFault_fNan (ht : i.valueType = .f32) (hscale : s.ScaleLegal) (hi : i.isEnc = true)
    (hv : i.validFlag = true) (hnan : isNaN s.vin = true) : s.commandFault i = some .fNan := by
  rw [commandFault_enc hs hcap hi, if_neg (by simp [hscale]), if_pos ⟨ht, hv, hnan⟩]

end State

end

/-- Settles O27: the hypotheses of each clause are the checks passed and the one that fails. -/
theorem commandFaultsInOrder : Obligations.CommandFaultsInOrder := by
  unfold Obligations.CommandFaultsInOrder
  intro i s
  refine ⟨fun h => faults_of_commandFault (State.commandFault_fSchema h), fun w hs => ⟨fun hout => ?range,
    fun hcap => ⟨fun hi hwidth => ?width, fun ht hscale => ?scale, fun ht hscale hi hv hnan => ?nan⟩⟩⟩
  case range => exact faults_of_commandFault (State.commandFault_fRange hs hout)
  case width => exact faults_of_commandFault (State.commandFault_fWidth hs hcap hi hwidth)
  case scale => exact faults_of_commandFault (State.commandFault_fScale hs hcap ht hscale)
  case nan => exact faults_of_commandFault (State.commandFault_fNan hs hcap ht hscale hi hv hnan)

/-! ### The first cause -/

theorem State.raise_fcause_of_fault {s : State} (h : s.fault = true) (k : FaultCode) :
    (s.raise k).fcause = s.fcause := if_pos h

/-- No command, faulting or not, clears FAULT or records a second cause (60_exceptions.md R97). -/
theorem runWord_keepsFirstCause {c : Word} {s t : State} (h : runWord c s = .next t) (hf : s.fault = true) :
    t.fault = true ∧ t.fcause = s.fcause := by
  obtain ⟨k, rfl⟩ | ⟨_, _, -, -, -, -, rfl⟩ | ⟨_, _, -, -, -, -, rfl⟩ := runWord_cases h
  · exact ⟨rfl, State.raise_fcause_of_fault hf k⟩
  · exact ⟨hf, rfl⟩
  · exact ⟨hf, rfl⟩

/-- A register write leaves FAULT and FCAUSE as they were, or it is the clearing write (10_state.md R20). -/
theorem State.writeReg_fault_cases (s : State) (r : Reg) (v : Word) :
    ((s.writeReg r v).fault = s.fault ∧ (s.writeReg r v).fcause = s.fcause) ∨
      (r = .status ∧ statusWriteClears v = true ∧ s.writeReg r v = s.clearFault) := by
  cases r with
  | status =>
    by_cases hv : statusWriteClears v = true
    · exact .inr ⟨rfl, hv, if_pos hv⟩
    · rw [show s.writeReg .status v = s from if_neg hv]
      exact .inl ⟨rfl, rfl⟩
  | _ => exact .inl ⟨rfl, rfl⟩

/-- Settles O29: of the accesses, only a register write and reset can touch a fault already recorded. -/
theorem firstCauseKeptUntilCleared : Obligations.FirstCauseKeptUntilCleared := by
  unfold Obligations.FirstCauseKeptUntilCleared
  intro s t op rest hp hstep hf
  rw [step_cons hp] at hstep
  obtain ⟨_, _, -, -, -, rfl⟩ | ⟨c, -, hrun⟩ | ⟨r, v, rfl, -, rfl⟩ | ⟨_, _, -, -, -, -, rfl⟩ | ⟨_, -, -, rfl⟩ |
    ⟨_, _, -, -, rfl⟩ | ⟨hreset, rfl⟩ := hostStep_cases hstep
  case inr.inl =>
    have hkeeps := runWord_keepsFirstCause hrun hf
    exact .inl hkeeps
  case inr.inr.inl =>
    obtain ⟨hfault, hfcause⟩ | ⟨rfl, hv, hclear⟩ := State.writeReg_fault_cases { s with pending := rest } r v
    · exact .inl ⟨hfault.trans hf, hfcause⟩
    · rw [hclear]
      exact .inr ⟨rfl, rfl, .inr ⟨v, rfl, hv⟩⟩
  case inr.inr.inr.inr.inr.inr => exact .inr ⟨rfl, rfl, .inl hreset⟩
  all_goals exact .inl ⟨hf, rfl⟩

/-! ### The codes -/

/-- Settles O26: each code is the number the table of R93 gives it. -/
theorem faultCodeNumbers : Obligations.FaultCodeNumbers := by
  unfold Obligations.FaultCodeNumbers
  decide

end Sys2Proof.Machine
end

section
/-! PROOF. The reset and hazards family (70_reset_and_hazards.md): what changes VOUT and STATUS.VALID, reset apart
(R114). -/

namespace Sys2Proof.Machine

/-! ### What changes VOUT and VALID -/

/-- VOUT is read only (10_state.md R17). -/
@[simp] theorem State.writeReg_vout (s : State) (r : Reg) (v : Word) : (s.writeReg r v).vout = s.vout := by
  cases r with
  | status =>
    simp only [State.writeReg]
    split <;> rfl
  | _ => rfl

/-- A write of STATUS does not reach VALID (10_state.md R20). -/
@[simp] theorem State.writeReg_valid (s : State) (r : Reg) (v : Word) : (s.writeReg r v).valid = s.valid := by
  cases r with
  | status =>
    simp only [State.writeReg]
    split <;> rfl
  | _ => rfl

/-- A command word that changes VOUT or VALID decodes to a DEC, and the DEC completed: NBYTES is its width. -/
theorem runWord_output_ne {c : Word} {s t : State} (h : runWord c s = .next t)
    (hne : t.vout ≠ s.vout ∨ t.valid ≠ s.valid) :
    ∃ i, decode c = .command i ∧ i.isEnc = false ∧ t.nbytes ≠ 0#3 := by
  obtain ⟨k, rfl⟩ | ⟨_, _, -, -, -, -, rfl⟩ | ⟨i, _, hdecode, hdec, hschema, -, rfl⟩ := runWord_cases h
  · simp at hne
  · simp at hne
  · exact ⟨i, hdecode, hdec, State.nbytes_ne_zero hschema⟩

/-- Settles O30: of the accesses, only a CMD write that executes a completing DEC changes the decoded output. -/
theorem voutAndValidChangeOnlyByDec : Obligations.VoutAndValidChangeOnlyByDec := by
  unfold Obligations.VoutAndValidChangeOnlyByDec
  intro s t op rest hp hstep hop hne
  rw [step_cons hp] at hstep
  obtain ⟨_, _, -, -, -, rfl⟩ | ⟨c, rfl, hrun⟩ | ⟨r, v, -, -, rfl⟩ | ⟨_, _, -, -, -, -, rfl⟩ | ⟨_, -, -, rfl⟩ |
    ⟨_, _, -, -, rfl⟩ | ⟨hreset, -⟩ := hostStep_cases hstep
  case inr.inl =>
    obtain ⟨i, hdecode, hdec, hnbytes⟩ := runWord_output_ne hrun (by simpa using hne)
    exact ⟨c, i, rfl, hdecode, hdec, hnbytes⟩
  case inr.inr.inr.inr.inr.inr => exact absurd hreset hop
  all_goals simp at hne

end Sys2Proof.Machine
end
